-- ==== Sys2Proof/Word.lean ====
section
/-! DEFINITION. The two bit-vector types of the machine (00_scope.md R6, R7): 8-bit bytes and 32-bit register values. -/

namespace Sys2Proof

/-- A byte of memory, a member of `u8` (R6). -/
abbrev Byte := BitVec 8

/-- A 32-bit pattern: a register, the program counter or an operand field. `toInt` is its `i32` reading,
`toNat` its `u32` reading (R7). -/
abbrev Word := BitVec 32

end Sys2Proof
end

