-- ==== Sys2Proof/Config.lean ====
section
/-! DEFINITION. The implementation parameters of 00_scope.md R5, their constraints and their defaults. -/

namespace Sys2Proof

/-- What an operation does when its exact result does not fit `i32` (R5 `ARITH_OVERFLOW`, `DIV_OVERFLOW`). -/
inductive OverflowPolicy where
  | wrap
  | fault
  deriving DecidableEq, Repr

/-- The parameters `OPC_*`: the byte value of each of the fourteen opcodes (R5, R86; D1). -/
structure OpcodeMap where
  halt : Byte
  jump : Byte
  store : Byte
  load : Byte
  loadIndirect : Byte
  moveRegister : Byte
  add : Byte
  subtract : Byte
  multiply : Byte
  divide : Byte
  compareEqual : Byte
  noOperation : Byte
  push : Byte
  pop : Byte
  deriving DecidableEq, Repr

/-- The fourteen byte values, in the order of the listing of R86. -/
def OpcodeMap.toList (m : OpcodeMap) : List Byte :=
  [m.halt, m.jump, m.store, m.load, m.loadIndirect, m.moveRegister, m.add, m.subtract, m.multiply,
    m.divide, m.compareEqual, m.noOperation, m.push, m.pop]

/-- Everything R5 leaves to the construction of a machine. It never changes during a run (R20). -/
structure Config where
  /-- `MEM_SIZE`, written `N`. -/
  memSize : Nat
  /-- `REG_COUNT`, written `M`. -/
  regCount : Nat
  /-- `IDX_A`. -/
  idxA : Nat
  /-- `IDX_B`. -/
  idxB : Nat
  /-- `IDX_C`. -/
  idxC : Nat
  /-- `IDX_SP`. -/
  idxSP : Nat
  /-- `IDX_IP`. -/
  idxIP : Nat
  /-- `IDX_CYC`. -/
  idxCYC : Nat
  /-- `OPC_*`. -/
  opc : OpcodeMap
  /-- `ARITH_OVERFLOW`: Add, Subtract, Multiply outside `i32`. -/
  arithOverflow : OverflowPolicy
  /-- `DIV_OVERFLOW`: Divide of `INT_MIN` by `-1`. -/
  divOverflow : OverflowPolicy
  /-- `REG_INIT`: the value of each register when a run starts, by index; the entry of `IDX_CYC` is not used. -/
  regInit : List Word
  deriving DecidableEq, Repr

/-- The six reserved indices, in the order of the table of R5. -/
def Config.indices (c : Config) : List Nat :=
  [c.idxA, c.idxB, c.idxC, c.idxSP, c.idxIP, c.idxCYC]

/-- The constraints column of R5: "a configuration that breaks one is not a virch machine". -/
abbrev Config.WF (c : Config) : Prop :=
  1 ≤ c.memSize ∧ c.memSize ≤ 2 ^ 31 - 1 ∧ 6 ≤ c.regCount ∧ c.regCount ≤ 2 ^ 31 ∧
  c.indices.Nodup ∧ (∀ i ∈ c.indices, i < c.regCount) ∧ c.opc.toList.Nodup ∧
  c.regInit.length = c.regCount

/-- The example assignment of R86, which the spec adopts (D1). DESIGN CHOICE of R5's default column (log entry 2). -/
def OpcodeMap.default : OpcodeMap where
  halt := 0
  jump := 1
  store := 2
  load := 3
  loadIndirect := 4
  moveRegister := 5
  add := 6
  subtract := 7
  multiply := 8
  divide := 9
  compareEqual := 10
  noOperation := 11
  push := 12
  pop := 13

/-- The default column of R5 (D1, D2, D3, D7, D9, D16). DESIGN CHOICE (log entries 2 and 3). -/
def Config.default : Config where
  memSize := 4096
  regCount := 6
  idxA := 0
  idxB := 1
  idxC := 2
  idxSP := 3
  idxIP := 4
  idxCYC := 5
  opc := OpcodeMap.default
  arithOverflow := .wrap
  divOverflow := .fault
  regInit := [0, 0, 0, 4096, 0, 0]

end Sys2Proof
end

