-- ==== Sys2Proof/Syntax.lean ====
section
/-! DEFINITION. The fourteen opcodes and the fourteen instructions with their operand fields (30_encoding.md R86). -/

namespace Sys2Proof

/-- The closed enumeration of operations (R86, R87). -/
inductive Opcode where
  | halt
  | jump
  | store
  | load
  | loadIndirect
  | moveRegister
  | add
  | subtract
  | multiply
  | divide
  | compareEqual
  | noOperation
  | push
  | pop
  deriving DecidableEq, Repr

/-- An instruction with its raw 32-bit operand fields. A field keeps the whole pattern: no bit of an index or an
address is ignored (R84). Which reading applies (`u32` or `i32`) is the instruction's own rule (R83). -/
inductive Instr where
  /-- R130. -/
  | halt
  /-- R131: `target`, an `i32` absolute byte address. -/
  | jump (target : Word)
  /-- R140: `r`, a `u32` source register index; `addr`, a `u32` byte address. -/
  | store (r addr : Word)
  /-- R141: `r`, a `u32` destination register index; `imm`, an `i32` literal. -/
  | load (r imm : Word)
  /-- R142: `r`, a `u32` destination register index; `addr`, an `i32` byte address. -/
  | loadIndirect (r addr : Word)
  /-- R143: `rd`, the `u32` destination index; `rs`, the `u32` source index. -/
  | moveRegister (rd rs : Word)
  /-- R151. -/
  | add
  /-- R152. -/
  | subtract
  /-- R153. -/
  | multiply
  /-- R154. -/
  | divide
  /-- R155. -/
  | compareEqual
  /-- R132. -/
  | noOperation
  /-- R165: `r`, a `u32` source register index. -/
  | push (r : Word)
  /-- R166: `r`, a `u32` destination register index. -/
  | pop (r : Word)
  deriving DecidableEq, Repr

/-- The three instruction formats (R82). -/
inductive Format where
  | f0
  | f1
  | f2
  deriving DecidableEq, Repr

/-- Why the decoder reads no instruction from a run of bytes. -/
inductive DecodeError where
  /-- There is no opcode byte: the run of bytes is empty. -/
  | noBytes
  /-- The first byte is none of the fourteen opcodes (R88). -/
  | illegalOpcode (b : Byte)
  /-- The bytes end inside operand field `k` (R91). -/
  | truncated (k : Nat)
  deriving DecidableEq, Repr

end Sys2Proof
end

