-- ==== Sys2Proof/WellFormed.lean ====
section
/-! DEFINITION. Which operand values are legal for their role (30_encoding.md R84). An instruction that is not well
formed still decodes (R89); it faults when it uses the operand. -/

namespace Sys2Proof

/-- R84, role register index: legal values `0 .. M-1`. -/
def legalRegister (c : Config) (r : Word) : Bool :=
  decide (r.toNat < c.regCount)

/-- R84, role data address read as `u32` (Store): legal values `0 .. N-4`. -/
def legalAddressU32 (c : Config) (a : Word) : Bool :=
  decide (a.toNat + 4 ≤ c.memSize)

/-- R84, role data address read as `i32` (LoadIndirect): legal values `0 .. N-4`. -/
def legalAddressI32 (c : Config) (a : Word) : Bool :=
  decide (0 ≤ a.toInt) && decide (a.toInt + 4 ≤ c.memSize)

/-- Every operand field holds a legal value for its role. A literal and a jump target admit every value. -/
def Instr.wf (c : Config) (i : Instr) : Bool :=
  match i with
  | .halt => true
  | .jump _ => true
  | .store r addr => legalRegister c r && legalAddressU32 c addr
  | .load r _ => legalRegister c r
  | .loadIndirect r addr => legalRegister c r && legalAddressI32 c addr
  | .moveRegister rd rs => legalRegister c rd && legalRegister c rs
  | .add => true
  | .subtract => true
  | .multiply => true
  | .divide => true
  | .compareEqual => true
  | .noOperation => true
  | .push r => legalRegister c r
  | .pop r => legalRegister c r

end Sys2Proof
end

