-- ==== Sys2Proof/Decode.lean ====
section
/-! DEFINITION. The decoder, total on any bytes (30_encoding.md R80 to R91), and after it the encoder (R92), both over
the opcode map `OPC_*`. -/

namespace Sys2Proof

/-! ## The opcode table -/

/-- The fourteen operations, in the order of R86. -/
def Opcode.all : List Opcode :=
  [.halt, .jump, .store, .load, .loadIndirect, .moveRegister, .add, .subtract, .multiply, .divide,
    .compareEqual, .noOperation, .push, .pop]

/-- The opcode byte of an operation (R86, `OPC_*`). -/
def OpcodeMap.byteOf (m : OpcodeMap) : Opcode → Byte
  | .halt => m.halt
  | .jump => m.jump
  | .store => m.store
  | .load => m.load
  | .loadIndirect => m.loadIndirect
  | .moveRegister => m.moveRegister
  | .add => m.add
  | .subtract => m.subtract
  | .multiply => m.multiply
  | .divide => m.divide
  | .compareEqual => m.compareEqual
  | .noOperation => m.noOperation
  | .push => m.push
  | .pop => m.pop

/-- R87: the operation an opcode byte spells, if any; all eight bits are compared. -/
def OpcodeMap.opcodeOf (m : OpcodeMap) (b : Byte) : Option Opcode :=
  Opcode.all.find? (fun op => m.byteOf op == b)

/-- R82: the format of each operation. -/
def Opcode.format : Opcode → Format
  | .halt | .add | .subtract | .multiply | .divide | .compareEqual | .noOperation => .f0
  | .jump | .push | .pop => .f1
  | .store | .load | .loadIndirect | .moveRegister => .f2

/-- How many operand fields a format has (R82). -/
def Format.fieldCount : Format → Nat
  | .f0 => 0
  | .f1 => 1
  | .f2 => 2

/-- How many operand fields an operation has. -/
def Opcode.fieldCount (op : Opcode) : Nat := op.format.fieldCount

/-- R85: `operand_bytes(opcode)`. -/
def Opcode.operandBytes (op : Opcode) : Nat := 4 * op.fieldCount

/-- R85: `len = 1 + operand_bytes(opcode)`. -/
def Opcode.length (op : Opcode) : Nat := 1 + op.operandBytes

/-! ## Instructions as an operation and its raw fields -/

/-- The instruction with this operation and these raw fields; a field the format lacks is not looked at (R82). -/
def Instr.build (op : Opcode) (f0 f1 : Word) : Instr :=
  match op with
  | .halt => .halt
  | .jump => .jump f0
  | .store => .store f0 f1
  | .load => .load f0 f1
  | .loadIndirect => .loadIndirect f0 f1
  | .moveRegister => .moveRegister f0 f1
  | .add => .add
  | .subtract => .subtract
  | .multiply => .multiply
  | .divide => .divide
  | .compareEqual => .compareEqual
  | .noOperation => .noOperation
  | .push => .push f0
  | .pop => .pop f0

/-- The operation of an instruction. -/
def Instr.opcode : Instr → Opcode
  | .halt => .halt
  | .jump _ => .jump
  | .store _ _ => .store
  | .load _ _ => .load
  | .loadIndirect _ _ => .loadIndirect
  | .moveRegister _ _ => .moveRegister
  | .add => .add
  | .subtract => .subtract
  | .multiply => .multiply
  | .divide => .divide
  | .compareEqual => .compareEqual
  | .noOperation => .noOperation
  | .push _ => .push
  | .pop _ => .pop

/-- The operand fields of an instruction, in field order (R82, R86). -/
def Instr.fields : Instr → List Word
  | .halt => []
  | .jump target => [target]
  | .store r addr => [r, addr]
  | .load r imm => [r, imm]
  | .loadIndirect r addr => [r, addr]
  | .moveRegister rd rs => [rd, rs]
  | .add => []
  | .subtract => []
  | .multiply => []
  | .divide => []
  | .compareEqual => []
  | .noOperation => []
  | .push r => [r]
  | .pop r => [r]

/-- The length of an instruction in bytes: 1, 5 or 9 (R85, R86). -/
def Instr.length (i : Instr) : Nat := i.opcode.length

/-! ## Byte order (20_memory.md R51) -/

/-- `le32(v)` of R92: the four bytes of a word, least significant first. -/
def le32 (v : Word) : List Byte :=
  [BitVec.ofNat 8 v.toNat, BitVec.ofNat 8 (v.toNat / 256), BitVec.ofNat 8 (v.toNat / 65536),
    BitVec.ofNat 8 (v.toNat / 16777216)]

/-- The word whose bytes, lowest address first, are these (R51, R83). -/
def wordOfBytes (b0 b1 b2 b3 : Byte) : Word :=
  BitVec.ofNat 32 (b0.toNat + 256 * (b1.toNat + 256 * (b2.toNat + 256 * b3.toNat)))

/-- The first four bytes as one little-endian word, and the bytes after them. -/
def takeWord : List Byte → Option (Word × List Byte)
  | b0 :: b1 :: b2 :: b3 :: rest => some (wordOfBytes b0 b1 b2 b3, rest)
  | _ => none

/-! ## Decode -/

/-- R85, R87, R88, R91: the instruction spelled by a run of bytes, and the bytes after it. -/
def decode (m : OpcodeMap) : List Byte → Except DecodeError (Instr × List Byte)
  | [] => .error .noBytes
  | b :: bytes =>
    match m.opcodeOf b with
    | none => .error (.illegalOpcode b)
    | some op =>
      match op.format with
      | .f0 => .ok (Instr.build op 0 0, bytes)
      | .f1 =>
        match takeWord bytes with
        | none => .error (.truncated 0)
        | some (f0, rest) => .ok (Instr.build op f0 0, rest)
      | .f2 =>
        match takeWord bytes with
        | none => .error (.truncated 0)
        | some (f0, rest) =>
          match takeWord rest with
          | none => .error (.truncated 1)
          | some (f1, rest') => .ok (Instr.build op f0 f1, rest')

/-! ## Encode (R92) -/

/-- R92: the bytes of an instruction: its opcode byte, then `le32` of each field in order. -/
def encode (m : OpcodeMap) (i : Instr) : List Byte :=
  m.byteOf i.opcode :: i.fields.flatMap le32

/-- R96: the program builder's byte sequence for a list of instructions; it validates nothing. -/
def assemble (m : OpcodeMap) (is : List Instr) : List Byte :=
  is.flatMap (encode m)

/-! ## The words of spec/opcode_table.json -/

/-- The longest instruction, in bytes (R82). -/
def maxLength : Nat := 9

/-- The bytes of an instruction given as one little-endian number `W` (R82) of `nbits` bits: byte `k` is
`W[8k+7:8k]`, and every bit from `nbits` up is 0. -/
def tableBytes (nbits w : Nat) : List Byte :=
  (List.range maxLength).map (fun k => BitVec.ofNat 8 ((w % 2 ^ nbits) / 2 ^ (8 * k)))

/-- The instruction the decoder reads, under the default opcode map, from the word `w` of an opcode-table row. -/
def decodeTableWord (nbits w : Nat) : Option Instr :=
  match decode OpcodeMap.default (tableBytes nbits w) with
  | .ok (i, _) => some i
  | .error _ => none

end Sys2Proof
end

