-- ==== Sys2Proof/Machine/State.lean ====
section
/-! DEFINITION. The machine's state as plain data (10_state.md R20), its reset value (R34, 70_reset_and_hazards.md R210),
and the reasons a step can stop. -/

namespace Sys2Proof.Machine

/-- `mem` (R32): the bytes that are not 0, by rising address. An unlisted address holds 0 (R34). -/
abbrev Memory := List Host.Cell

/-- The run status (R30). -/
inductive Status where
  /-- The next cycle executes the instruction at `pc`. -/
  | running
  /-- A Halt was executed. -/
  | halted
  /-- A fault was raised. -/
  | faulted
  deriving DecidableEq, Repr

/-- The four kinds of fault (60_exceptions.md R180). -/
inductive FaultKind where
  | decodeFault
  | registerFault
  | memoryFault
  | arithmeticFault
  deriving DecidableEq, Repr

/-- The fault record `(kind, code, at, info)` of R31 and R185. `atPc` is its `at`. -/
structure FaultRecord where
  kind : FaultKind
  code : Nat
  atPc : Word
  info : Int
  deriving DecidableEq, Repr

/-- What a check of a cycle raises: the kind of fault with the datum recorded as `info` (R180 to R184). -/
inductive Cause where
  /-- R181: the opcode byte `b` is none of the fourteen. -/
  | decodeFault (b : Byte)
  /-- R182: the register index `i` is outside `0 .. M-1`. -/
  | registerFault (i : Int)
  /-- R183: an access that starts at address `a` is not wholly in `0 .. N-1`. -/
  | memoryFault (a : Int)
  /-- R184: 0 divisor zero, 1 `INT_MIN / -1`, 2 overflow of Add, Subtract or Multiply. -/
  | arithmeticFault (sub : Nat)
  deriving DecidableEq, Repr

/-- The whole state (R20), and beside it the machine's parameters `cfg`, which no step changes (log entry 1). -/
structure State where
  cfg : Config
  /-- The program counter (R21). -/
  pc : Word
  /-- The register file `x[0 .. M-1]` (R23). -/
  regs : List Word
  /-- The memory (R32). -/
  mem : Memory
  /-- The run status (R30). -/
  status : Status
  /-- The fault record (R31). -/
  fault : Option FaultRecord
  deriving DecidableEq, Repr

/-- Why a step has no next state. Both are terminal states of the spec, in which no instruction executes (R120).
A CPU fault itself is no stop: its entry (R186) is a next state. -/
inductive Fault where
  /-- Raised by `step` when `status` is HALTED (R120, R190). Safe: the spec gives no step there. -/
  | halted
  /-- Raised by `step` when `status` is FAULTED, with the recorded fault (R120, R191). Safe: as above. -/
  | faulted (record : Option FaultRecord)
  deriving DecidableEq, Repr

/-- Why an instruction has no meaning in this model. -/
inductive Refusal where
  /-- Raised by an arm of `exec` whose instruction has no meaning yet; no arm does. Safe. -/
  | notModelled (mnemonic : String)
  deriving DecidableEq, Repr

/-- R210, R34: power-on of a machine with these parameters. `CYC` is 0 whatever `REG_INIT` says of it (log entry 4). -/
def State.powerOn (cfg : Config) : State where
  cfg := cfg
  pc := 0
  regs := cfg.regInit.set cfg.idxCYC 0
  mem := []
  status := .running
  fault := none

/-- The machine right after reset: power-on with the default parameters of R5 (log entries 2, 3 and 4). -/
def State.reset : State := State.powerOn Config.default

end Sys2Proof.Machine
end

