-- ==== Sys2Proof/Machine/Flags.lean ====
section
/-! DEFINITION. The machine has no flags (10_state.md R33). What stands in their place: the test whether an exact result
fits `i32`, the two overflow policies, the two results of a division and the 0 or 1 of a comparison
(43_arithmetic.md R150 to R157). -/

namespace Sys2Proof.Machine

/-- `INT_MIN` (R7). -/
abbrev intMin : Int := -2147483648

/-- `INT_MAX` (R7). -/
abbrev intMax : Int := 2147483647

/-- Membership in `i32` (R7). -/
def inI32 (v : Int) : Bool := decide (intMin ≤ v) && decide (v ≤ intMax)

/-- `wrap32(v)` (R7): the 32-bit value congruent to `v` modulo `2^32`. -/
def wrap32 (v : Int) : Word := BitVec.ofInt 32 v

/-- R151 to R153, R156: what Add, Subtract and Multiply make of their exact result. -/
def arithResult (p : OverflowPolicy) (exact : Int) : Except Cause Word :=
  match p with
  | .wrap => .ok (wrap32 exact)
  | .fault => if inI32 exact then .ok (wrap32 exact) else .error (.arithmeticFault 2)

/-- R154, R157: the quotient, rounded toward zero, and the remainder `a - q * b` (D8, D9). -/
def divResult (p : OverflowPolicy) (a b : Int) : Except Cause (Word × Word) :=
  if b = 0 then .error (.arithmeticFault 0)
  else if a = intMin ∧ b = -1 then
    match p with
    | .fault => .error (.arithmeticFault 1)
    | .wrap => .ok (wrap32 intMin, 0)
  else .ok (wrap32 (Int.tdiv a b), wrap32 (a - Int.tdiv a b * b))

/-- R155: 1 if the two values are equal, else 0. -/
def equalResult (a b : Word) : Word := if a = b then 1 else 0

end Sys2Proof.Machine
end

