-- ==== Sys2Proof/Machine/Memory.lean ====
section
/-! DEFINITION. The byte store behind `mem` (10_state.md R32): read and write of one byte, little-endian runs of bytes
(20_memory.md R51), and the canonical form. Nothing here checks bounds; Machine/Ops.lean does. -/

namespace Sys2Proof.Machine

/-- What an address that the list does not hold reads as: 0, the power-on value (R34, R210). -/
def Memory.blankByte : Byte := 0

/-- The byte at an address. -/
def Memory.get : Memory → Nat → Byte
  | [], _ => Memory.blankByte
  | (k, v) :: rest, a => if k = a then v else Memory.get rest a

/-- Put a byte in front of cells of higher addresses, unless it is the byte an unlisted address reads as. -/
def Memory.cons (a : Nat) (b : Byte) (rest : Memory) : Memory :=
  if b = Memory.blankByte then rest else (a, b) :: rest

/-- Write one byte, keeping the canonical form. -/
def Memory.set : Memory → Nat → Byte → Memory
  | [], a, b => Memory.cons a b []
  | (k, v) :: rest, a, b =>
    if a < k then Memory.cons a b ((k, v) :: rest)
    else if a = k then Memory.cons a b rest
    else (k, v) :: Memory.set rest a b

/-- R53: the sum of `mem[a + k] * 256^k` for `k = 0 .. n-1`. -/
def Memory.readLE (m : Memory) (a : Nat) : Nat → Nat
  | 0 => 0
  | n + 1 => (m.get a).toNat + 256 * Memory.readLE m (a + 1) n

/-- R54: `mem[a + k] <- (v >> 8k) mod 256` for `k = 0 .. n-1`. -/
def Memory.writeLE (m : Memory) (a : Nat) : Nat → Nat → Memory
  | 0, _ => m
  | n + 1, v => Memory.writeLE (m.set a (BitVec.ofNat 8 v)) (a + 1) n (v / 256)

/-- Write a run of bytes from an address up (R17). -/
def Memory.writeBytes (m : Memory) (a : Nat) : List Byte → Memory
  | [] => m
  | b :: bs => Memory.writeBytes (m.set a b) (a + 1) bs

/-- The canonical form: addresses strictly rising, and no cell that reads as an unlisted address does. -/
def Memory.wf : Memory → Bool
  | [] => true
  | (k, v) :: rest => decide (v ≠ Memory.blankByte) && rest.all (fun c => decide (k < c.1)) && Memory.wf rest

/-- Every cell lies in `0 .. n-1`. -/
def Memory.below (m : Memory) (n : Nat) : Bool :=
  m.all (fun c => decide (c.1 < n))

end Sys2Proof.Machine
end

