-- ==== Sys2Proof/Machine/Ops.lean ====
section
/-! DEFINITION. The named operations over registers and memory (00_scope.md R9), taking a fault (60_exceptions.md R186),
and the part of the cycle that surrounds every instruction (40_fetch_decode_cycle.md R110). There is no return from a
fault (R189), so no operation for one. -/

namespace Sys2Proof.Machine

/-! ## Registers (10_state.md R23 to R28) -/

/-- `x[i]`, for an index known to be in range. -/
def State.readReg (s : State) (i : Nat) : Word := s.regs.getD i 0

/-- `x[i] <- v`, for an index known to be in range. -/
def State.writeReg (s : State) (i : Nat) (v : Word) : State := { s with regs := s.regs.set i v }

/-- The state with another memory. -/
def State.setMem (s : State) (m : Memory) : State := { s with mem := m }

/-- The state with another program counter. -/
def State.setPc (s : State) (a : Word) : State := { s with pc := a }

/-- The state with another run status. -/
def State.setStatus (s : State) (st : Status) : State := { s with status := st }

/-- `A = x[IDX_A]`. -/
def State.regA (s : State) : Word := s.readReg s.cfg.idxA
/-- `B = x[IDX_B]`. -/
def State.regB (s : State) : Word := s.readReg s.cfg.idxB
/-- `C = x[IDX_C]`. -/
def State.regC (s : State) : Word := s.readReg s.cfg.idxC
/-- `SP = x[IDX_SP]` (R26). -/
def State.regSP (s : State) : Word := s.readReg s.cfg.idxSP
/-- `IP = x[IDX_IP]`, the mirror register (R27). -/
def State.regIP (s : State) : Word := s.readReg s.cfg.idxIP
/-- `CYC = x[IDX_CYC]`, the cycle counter (R28). -/
def State.regCYC (s : State) : Word := s.readReg s.cfg.idxCYC

/-! ## Memory (20_memory.md R50 to R54) -/

/-- The byte `mem[a]`, unchecked: what the host and the statements read. -/
def State.byteAt (s : State) (a : Nat) : Byte := s.mem.get a

/-- R50: an access of `n` bytes at `a` is valid exactly when `0 <= a` and `a + n <= N`. -/
def State.inBounds (s : State) (a : Int) (n : Nat) : Bool :=
  decide (0 ≤ a) && decide (a + n ≤ s.cfg.memSize)

/-- R53: `MemRead(a, n)`. -/
def memRead (s : State) (a : Int) (n : Nat) : Except Cause Nat :=
  if s.inBounds a n then .ok (s.mem.readLE a.toNat n) else .error (.memoryFault a)

/-- R54: `MemWrite(a, n, v)`; the check precedes every byte. -/
def memWrite (s : State) (a : Int) (n : Nat) (v : Word) : Except Cause State :=
  if s.inBounds a n then .ok (s.setMem (s.mem.writeLE a.toNat n v.toNat)) else .error (.memoryFault a)

/-- R11: `read_u8`. -/
def readU8 (s : State) (a : Int) : Except Cause Byte :=
  match memRead s a 1 with
  | .error c => .error c
  | .ok n => .ok (BitVec.ofNat 8 n)

/-- R11, R53: the 4-byte read as a 32-bit pattern; `toInt` of it is `read_i32`, `toNat` the unsigned read. -/
def readWord (s : State) (a : Int) : Except Cause Word :=
  match memRead s a 4 with
  | .error c => .error c
  | .ok n => .ok (BitVec.ofNat 32 n)

/-- R11: `write_u8`. No instruction uses it. -/
def writeU8 (s : State) (a : Int) (b : Byte) : Except Cause State := memWrite s a 1 (b.setWidth 32)

/-- R11: `write_i32`. -/
def writeWord (s : State) (a : Int) (v : Word) : Except Cause State := memWrite s a 4 v

/-! ## Faults (60_exceptions.md R180 to R186) -/

/-- The numeric code of a kind of fault (R180). -/
def FaultKind.code : FaultKind → Nat
  | .decodeFault => 1
  | .registerFault => 2
  | .memoryFault => 3
  | .arithmeticFault => 4

/-- The kind of fault a cause is. -/
def Cause.kind : Cause → FaultKind
  | .decodeFault _ => .decodeFault
  | .registerFault _ => .registerFault
  | .memoryFault _ => .memoryFault
  | .arithmeticFault _ => .arithmeticFault

/-- The datum a cause records (R180). -/
def Cause.info : Cause → Int
  | .decodeFault b => b.toNat
  | .registerFault i => i
  | .memoryFault a => a
  | .arithmeticFault sub => sub

/-- R185: the record of a fault raised while `pc` has this value. -/
def faultRecord (pc : Word) (c : Cause) : FaultRecord where
  kind := c.kind
  code := c.kind.code
  atPc := pc
  info := c.info

/-- R186, fault entry, applied to the state the cycle began in: so every write of the cycle is discarded. -/
def State.takeFault (s : State) (c : Cause) : State :=
  { s with status := .faulted, fault := some (faultRecord s.pc c) }

/-! ## The common part of the cycle (40_fetch_decode_cycle.md R110) -/

/-- R113: the sequential address of an instruction of `len` bytes at `pc`. -/
def State.pcSeq (s : State) (len : Nat) : Word := s.pc + BitVec.ofNat 32 len

/-- R114: the mirror write `x[IDX_IP] <- a`. -/
def State.mirror (s : State) (a : Word) : State := s.writeReg s.cfg.idxIP a

/-- R117, R118: the end of a completed cycle: `pc` is written once, and `CYC` counts. -/
def State.retire (s : State) (pcNext : Word) : State :=
  (s.writeReg s.cfg.idxCYC (s.regCYC + 1)).setPc pcNext

/-- R110 from the mirror write on, for every instruction but Halt: the mirror write, `execute`, and then either the
end of the cycle or the fault entry. `s` is the state the cycle began in. -/
def runInstr (s : State) (op : Opcode) (pcNext : Word) (execute : State → Except Cause State) :
    Host.Outcome State Fault Refusal :=
  match execute (s.mirror (s.pcSeq op.length)) with
  | .error c => .next (s.takeFault c)
  | .ok t => .next (t.retire pcNext)

/-- `runInstr` for an instruction after which `pc` is the sequential address (R117). -/
def runSequential (s : State) (op : Opcode) (execute : State → Except Cause State) :
    Host.Outcome State Fault Refusal :=
  runInstr s op (s.pcSeq op.length) execute

end Sys2Proof.Machine
end

