-- ==== Sys2Proof/Machine/Operands.lean ====
section
/-! DEFINITION. The roles an operand field can play (30_encoding.md R84): register index, literal, data address, jump
target. -/

namespace Sys2Proof.Machine

/-- R24, R182: a register index operand, read as `u32`; out of range it raises RegisterFault. -/
def regIndex (s : State) (f : Word) : Except Cause Nat :=
  if f.toNat < s.cfg.regCount then .ok f.toNat else .error (.registerFault f.toNat)

/-- R84: a literal, read as `i32`; every value is legal. -/
def literal (f : Word) : Word := f

/-- R61, R140: the data address of Store, read as `u32`. -/
def addressU32 (f : Word) : Int := f.toNat

/-- R61, R142: the data address of LoadIndirect, read as `i32`. -/
def addressI32 (f : Word) : Int := f.toInt

/-- R165: the address Push stores to, `wrap32(SP - 4)`, which is also the new `SP`. -/
def pushPointer (s : State) : Word := s.regSP - 4

/-- R166: the address Pop reads from, `SP`. -/
def popPointer (s : State) : Word := s.regSP

/-- R131: the jump target, read as `i32`; it is not checked. -/
def jumpTarget (f : Word) : Word := f

end Sys2Proof.Machine
end

