-- ==== Sys2Proof/Machine/Arithmetic.lean ====
section
/-! DEFINITION. Add, Subtract, Multiply, Divide and CompareEqual on the fixed registers A, B and C
(43_arithmetic.md R150 to R157). -/

namespace Sys2Proof.Machine

/-- R150, R156: `A <-` an exact result brought into 32 bits under `ARITH_OVERFLOW`. -/
def writeA (s : State) (exact : Int) : Except Cause State :=
  match arithResult s.cfg.arithOverflow exact with
  | .error c => .error c
  | .ok v => .ok (s.writeReg s.cfg.idxA v)

/-- The `execute` part of R151. -/
def addBody (s : State) : Except Cause State := writeA s (s.regA.toInt + s.regB.toInt)

/-- R151: `A <- A + B`. -/
def execAdd (s : State) : Host.Outcome State Fault Refusal := runSequential s .add addBody

/-- The `execute` part of R152. -/
def subtractBody (s : State) : Except Cause State := writeA s (s.regA.toInt - s.regB.toInt)

/-- R152: `A <- A - B`. -/
def execSubtract (s : State) : Host.Outcome State Fault Refusal := runSequential s .subtract subtractBody

/-- The `execute` part of R153. -/
def multiplyBody (s : State) : Except Cause State := writeA s (s.regA.toInt * s.regB.toInt)

/-- R153: `A <-` the low 32 bits of `A * B`. -/
def execMultiply (s : State) : Host.Outcome State Fault Refusal := runSequential s .multiply multiplyBody

/-- The `execute` part of R154: both operands are read before either result is written. -/
def divideBody (s : State) : Except Cause State :=
  match divResult s.cfg.divOverflow s.regA.toInt s.regB.toInt with
  | .error c => .error c
  | .ok (q, r) => .ok ((s.writeReg s.cfg.idxA q).writeReg s.cfg.idxC r)

/-- R154: `A <-` quotient, `C <-` remainder. -/
def execDivide (s : State) : Host.Outcome State Fault Refusal := runSequential s .divide divideBody

/-- The `execute` part of R155. -/
def compareEqualBody (s : State) : Except Cause State :=
  .ok (s.writeReg s.cfg.idxA (equalResult s.regA s.regB))

/-- R155: `A <- 1` if `A = B`, else 0. -/
def execCompareEqual (s : State) : Host.Outcome State Fault Refusal :=
  runSequential s .compareEqual compareEqualBody

end Sys2Proof.Machine
end

