-- ==== Sys2Proof/Machine/Control.lean ====
section
/-! DEFINITION. Halt, Jump and NoOperation (41_control.md R130 to R132). -/

namespace Sys2Proof.Machine

/-- R130: `status <- HALTED`; the mirror is written with `pc` itself; neither `pc` nor `CYC` is written. -/
def execHalt (s : State) : Host.Outcome State Fault Refusal :=
  .next ((s.mirror s.pc).setStatus .halted)

/-- R131: `pc <- target`, unchecked; the mirror holds the address after the Jump. -/
def execJump (target : Word) (s : State) : Host.Outcome State Fault Refusal :=
  runInstr s .jump (jumpTarget target) .ok

/-- R132: nothing beyond the common part of the cycle. -/
def execNoOperation (s : State) : Host.Outcome State Fault Refusal :=
  runSequential s .noOperation .ok

end Sys2Proof.Machine
end

