-- ==== Sys2Proof/Machine/DataMovement.lean ====
section
/-! DEFINITION. Store, Load, LoadIndirect and MoveRegister (42_data_movement.md R140 to R144). -/

namespace Sys2Proof.Machine

/-- The `execute` part of R140. -/
def storeBody (r addr : Word) (s : State) : Except Cause State :=
  match regIndex s r with
  | .error c => .error c
  | .ok i => writeWord s (addressU32 addr) (s.readReg i)

/-- R140: `mem[addr .. addr+3] <- x[r]`. -/
def execStore (r addr : Word) (s : State) : Host.Outcome State Fault Refusal :=
  runSequential s .store (storeBody r addr)

/-- The `execute` part of R141. -/
def loadBody (r imm : Word) (s : State) : Except Cause State :=
  match regIndex s r with
  | .error c => .error c
  | .ok i => .ok (s.writeReg i (literal imm))

/-- R141: `x[r] <- imm`. -/
def execLoad (r imm : Word) (s : State) : Host.Outcome State Fault Refusal :=
  runSequential s .load (loadBody r imm)

/-- The `execute` part of R142. -/
def loadIndirectBody (r addr : Word) (s : State) : Except Cause State :=
  match regIndex s r with
  | .error c => .error c
  | .ok i =>
    match readWord s (addressI32 addr) with
    | .error c => .error c
    | .ok v => .ok (s.writeReg i v)

/-- R142: `x[r] <-` the word at `addr`. -/
def execLoadIndirect (r addr : Word) (s : State) : Host.Outcome State Fault Refusal :=
  runSequential s .loadIndirect (loadIndirectBody r addr)

/-- The `execute` part of R143: the destination index is checked first. -/
def moveRegisterBody (rd rs : Word) (s : State) : Except Cause State :=
  match regIndex s rd with
  | .error c => .error c
  | .ok d =>
    match regIndex s rs with
    | .error c => .error c
    | .ok i => .ok (s.writeReg d (s.readReg i))

/-- R143: `x[rd] <- x[rs]`. -/
def execMoveRegister (rd rs : Word) (s : State) : Host.Outcome State Fault Refusal :=
  runSequential s .moveRegister (moveRegisterBody rd rs)

end Sys2Proof.Machine
end

