-- ==== Sys2Proof/Machine/Stack.lean ====
section
/-! DEFINITION. Push and Pop (44_stack.md R165 to R167). -/

namespace Sys2Proof.Machine

/-- The `execute` part of R165, in the order written there: `SP` is decremented before the operand is read (D14). -/
def pushBody (r : Word) (s : State) : Except Cause State :=
  match regIndex s r with
  | .error c => .error c
  | .ok i =>
    let sp1 := pushPointer s
    let t := s.writeReg s.cfg.idxSP sp1
    writeWord t sp1.toInt (t.readReg i)

/-- R165: `SP <- SP - 4`, then `mem[SP .. SP+3] <- x[r]`. -/
def execPush (r : Word) (s : State) : Host.Outcome State Fault Refusal :=
  runSequential s .push (pushBody r)

/-- The `execute` part of R166, in the order written there: `SP` is read again after the operand is written (D14). -/
def popBody (r : Word) (s : State) : Except Cause State :=
  match regIndex s r with
  | .error c => .error c
  | .ok i =>
    match readWord s (popPointer s).toInt with
    | .error c => .error c
    | .ok v =>
      let t := s.writeReg i v
      .ok (t.writeReg t.cfg.idxSP (t.regSP + 4))

/-- R166: `x[r] <-` the word at `SP`, then `SP <- SP + 4`. -/
def execPop (r : Word) (s : State) : Host.Outcome State Fault Refusal :=
  runSequential s .pop (popBody r)

end Sys2Proof.Machine
end

