-- ==== Sys2Proof/Machine/Dispatch.lean ====
section
/-! DEFINITION. Dispatch (40_fetch_decode_cycle.md R115): one arm per instruction. -/

namespace Sys2Proof.Machine

def exec (i : Instr) (s : State) : Host.Outcome State Fault Refusal :=
  match i with
  | .halt => Sys2Proof.Machine.execHalt s
  | .jump target => Sys2Proof.Machine.execJump target s
  | .store r addr => Sys2Proof.Machine.execStore r addr s
  | .load r imm => Sys2Proof.Machine.execLoad r imm s
  | .loadIndirect r addr => Sys2Proof.Machine.execLoadIndirect r addr s
  | .moveRegister rd rs => Sys2Proof.Machine.execMoveRegister rd rs s
  | .add => Sys2Proof.Machine.execAdd s
  | .subtract => Sys2Proof.Machine.execSubtract s
  | .multiply => Sys2Proof.Machine.execMultiply s
  | .divide => Sys2Proof.Machine.execDivide s
  | .compareEqual => Sys2Proof.Machine.execCompareEqual s
  | .noOperation => Sys2Proof.Machine.execNoOperation s
  | .push r => Sys2Proof.Machine.execPush r s
  | .pop r => Sys2Proof.Machine.execPop r s

end Sys2Proof.Machine
end

