-- ==== Sys2Proof/Machine/Fetch.lean ====
section
/-! DEFINITION. The fetch_decode_unit: fetch of the opcode byte and of the operand fields, each through `MemRead`, in the
order of 40_fetch_decode_cycle.md R111 and R112, and the record it hands on (00_scope.md R14). -/

namespace Sys2Proof.Machine

/-- R83: operand field `k` of the instruction at `pc`, as a raw 32-bit pattern. -/
def fetchField (s : State) (k : Nat) : Except Cause Word := readWord s (s.pc.toInt + 1 + 4 * k)

/-- R112: the operand fields of `op`, field 0 then field 1, and the instruction they make. -/
def fetchOperands (s : State) (op : Opcode) : Except Cause Instr :=
  match op.format with
  | .f0 => .ok (Instr.build op 0 0)
  | .f1 =>
    match fetchField s 0 with
    | .error c => .error c
    | .ok f0 => .ok (Instr.build op f0 0)
  | .f2 =>
    match fetchField s 0 with
    | .error c => .error c
    | .ok f0 =>
      match fetchField s 1 with
      | .error c => .error c
      | .ok f1 => .ok (Instr.build op f0 f1)

/-- R111, R112: the instruction at `pc`, or the first check of the fetch that fails (R187, steps 1 to 4). -/
def fetchDecode (s : State) : Except Cause Instr :=
  match readU8 s s.pc.toInt with
  | .error c => .error c
  | .ok b =>
    match s.cfg.opc.opcodeOf b with
    | none => .error (.decodeFault b)
    | some op => fetchOperands s op

/-- R14: what the fetch_decode_unit hands to the cpu_execute_engine. -/
structure Decoded where
  op : Opcode
  len : Nat
  f0 : Option Word
  f1 : Option Word
  pcSeq : Word
  deriving DecidableEq, Repr

/-- R14, R113: the record of an instruction at `pc`; for Halt the sequential address is `pc` itself. -/
def decodedRecord (s : State) (i : Instr) : Decoded where
  op := i.opcode
  len := i.length
  f0 := i.fields[0]?
  f1 := i.fields[1]?
  pcSeq := if i.opcode = .halt then s.pc else s.pcSeq i.length

/-- The bytes from `pc` to the end of memory, at most as many as the longest instruction has; none where `pc` is
outside memory. -/
def bytesAtPc (s : State) : List Byte :=
  if s.inBounds s.pc.toInt 1 then
    (List.range (min maxLength (s.cfg.memSize - s.pc.toNat))).map (fun k => s.byteAt (s.pc.toNat + k))
  else []

/-- Place a run of bytes from `pc` up, leaving out what would lie outside memory. -/
def placeAtPc (s : State) (bytes : List Byte) : State :=
  if s.inBounds s.pc.toInt 1 then
    s.setMem (s.mem.writeBytes s.pc.toNat (bytes.take (s.cfg.memSize - s.pc.toNat)))
  else s

end Sys2Proof.Machine
end

