-- ==== Sys2Proof/Machine/Step.lean ====
section
/-! DEFINITION. One step of the machine: one `cycle()` of a running machine (40_fetch_decode_cycle.md R110, R120). -/

namespace Sys2Proof.Machine

/-- R110, R120: a running machine executes the instruction at `pc`, or takes the fault of its fetch (R186); HALTED and
FAULTED "are states with no step". -/
def step (s : State) : Host.Outcome State Fault Refusal :=
  match s.status with
  | .halted => .fault .halted
  | .faulted => .fault (.faulted s.fault)
  | .running =>
    match fetchDecode s with
    | .error c => .next (s.takeFault c)
    | .ok i => exec i s

/-- The instruction `w` of `nbits` bits (spec/opcode_table.json) stored at `pc`, where `step` fetches next. Only memory
bytes change; bytes that would lie outside memory are left out (log entry 9). -/
def State.withFetchWord (s : State) (nbits w : Nat) : State := placeAtPc s (tableBytes nbits w)

end Sys2Proof.Machine
end

