-- ==== Sys2Proof/Machine/HostOps.lean ====
section
/-! DEFINITION. What the host can do to the CORE (00_scope.md R11 to R17): power-on, load, register access,
`initialize()`, `cycle()`, `run()` and read-back. Each is a function on the state. -/

namespace Sys2Proof.Machine

/-- R17: the host-side failure of a load; it is none of the four CPU faults and has no record (D25). -/
inductive LoadFault where
  | imageTooLong
  deriving DecidableEq, Repr

/-- R17, R211: copy an image to address 0, or fail without starting the machine if it is longer than memory. -/
def State.load (s : State) (bytes : List Byte) : Except LoadFault State :=
  if bytes.length ≤ s.cfg.memSize then .ok (s.setMem (s.mem.writeBytes 0 bytes))
  else .error .imageTooLong

/-- R24: the index check of a host access. -/
def State.hostIndexOk (s : State) (i : Int) : Bool := decide (0 ≤ i) && decide (i < s.cfg.regCount)

/-- R196: the RegisterFault of a host access. The first record of a run stays (R31, R191; log entry 10). -/
def State.hostRegisterFault (s : State) (i : Int) : State :=
  match s.status with
  | .faulted => s
  | .running => s.takeFault (.registerFault i)
  | .halted => s.takeFault (.registerFault i)

/-- R12, R196: host `read(index)`: the value, if the index is in range, and the state after. -/
def State.hostRead (s : State) (i : Int) : Option Word × State :=
  if s.hostIndexOk i then (some (s.readReg i.toNat), s) else (none, s.hostRegisterFault i)

/-- R12, R196: host `write(index, value)`. -/
def State.hostWrite (s : State) (i : Int) (v : Word) : State :=
  if s.hostIndexOk i then s.writeReg i.toNat v else s.hostRegisterFault i

/-- R212: `initialize()`. FAULTED stays FAULTED (D30). -/
def State.hostInitialize (s : State) : State :=
  let t := (s.writeReg s.cfg.idxCYC 0).setPc 0
  match s.status with
  | .running => t
  | .halted => t.setStatus .running
  | .faulted => t

/-- R15: the outcomes of `cycle()`. -/
inductive CycleResult where
  /-- `continue`: the instruction completed. -/
  | goOn
  /-- `halt`. -/
  | halt
  /-- `fault(record)`. -/
  | fault (record : Option FaultRecord)
  deriving DecidableEq, Repr

/-- The outcome that a state just after a cycle stands for (R15). -/
def State.cycleResult (s : State) : CycleResult :=
  match s.status with
  | .running => .goOn
  | .halted => .halt
  | .faulted => .fault s.fault

/-- R110, R120, R190, R191: `cycle()` with its outcome. Where the machine has no step, the state stays as it is and the
outcome is the one recorded. -/
def State.cycle (s : State) : State × CycleResult :=
  match step s with
  | .next t => (t, t.cycleResult)
  | .fault _ => (s, s.cycleResult)
  | .refused _ => (s, s.cycleResult)

/-- Cycles under fuel until the outcome is `halt` or `fault`; `none` where the fuel ran out (R122, log entry 15). -/
def State.cyclesUntilStop : Nat → State → Option (State × CycleResult)
  | 0, _ => none
  | n + 1, s =>
    match s.cycle with
    | (t, .goOn) => State.cyclesUntilStop n t
    | (t, .halt) => some (t, .halt)
    | (t, .fault r) => some (t, .fault r)

/-- R121: `run()`: `initialize()`, then cycles until a stop, under fuel. -/
def State.runWithFuel (fuel : Nat) (s : State) : Option (State × CycleResult) :=
  State.cyclesUntilStop fuel s.hostInitialize

/-- R121: the run from `s` ends in `t` with this outcome. A run that never ends has no such `t` (R122). -/
def State.RunEnds (s t : State) (o : CycleResult) : Prop :=
  ∃ fuel, s.runWithFuel fuel = some (t, o)

/-- R67: the host reads a byte of memory; no value outside memory (log entry 12). -/
def State.hostReadU8 (s : State) (a : Int) : Option Byte :=
  match readU8 s a with
  | .error _ => none
  | .ok b => some b

/-- R67: the host reads a word of memory; no value outside memory (log entry 12). -/
def State.hostReadWord (s : State) (a : Int) : Option Word :=
  match readWord s a with
  | .error _ => none
  | .ok v => some v

/-- R219: the value the host reports as the program's result: register A (D24). -/
def State.result (s : State) : Word := s.regA

end Sys2Proof.Machine
end

