-- ==== Sys2Proof/Safety.lean ====
section
/-! DEFINITION. The terms in which claims about the machine are stated: well-formed states, safe and successful runs, and
what a completed instruction leaves in each register and each byte. -/

namespace Sys2Proof

/-- The register an instruction names as the destination of its own write, if any (R29). -/
def Instr.destination : Instr → Option Nat
  | .halt => none
  | .jump _ => none
  | .store _ _ => none
  | .load r _ => some r.toNat
  | .loadIndirect r _ => some r.toNat
  | .moveRegister rd _ => some rd.toNat
  | .add => none
  | .subtract => none
  | .multiply => none
  | .divide => none
  | .compareEqual => none
  | .noOperation => none
  | .push _ => none
  | .pop r => some r.toNat

end Sys2Proof

namespace Sys2Proof.Machine

/-! ## Well-formed states -/

/-- R180 to R184: the code is that of the kind, and `info` is a datum for which that fault is raised. -/
def FaultRecord.wf (c : Config) (r : FaultRecord) : Bool :=
  decide (r.code = r.kind.code) &&
  match r.kind with
  | .decodeFault =>
    decide (0 ≤ r.info) && decide (r.info < 256) && decide (BitVec.ofInt 8 r.info ∉ c.opc.toList)
  | .registerFault => !(decide (0 ≤ r.info) && decide (r.info < c.regCount))
  | .memoryFault => !(decide (0 ≤ r.info) && decide (r.info + 4 ≤ c.memSize))
  | .arithmeticFault =>
    decide (r.info = 0) || (decide (r.info = 1) && decide (c.divOverflow = .fault)) ||
      (decide (r.info = 2) && decide (c.arithOverflow = .fault))

/-- R31: a fault record is there exactly when the machine is FAULTED, and it is a true one. -/
def State.faultWf (s : State) : Bool :=
  match s.fault with
  | none => decide (s.status ≠ .faulted)
  | some r => decide (s.status = .faulted) && r.wf s.cfg

/-- The states a virch machine can be in: its parameters meet the constraints of R5, it has `M` registers (R23), its
memory is in canonical form inside `0 .. N-1` (R32), and its fault record agrees with its status (R30, R31). -/
abbrev State.WF (s : State) : Prop :=
  s.cfg.WF ∧ s.regs.length = s.cfg.regCount ∧ s.mem.wf = true ∧ s.mem.below s.cfg.memSize = true ∧
  s.faultWf = true

/-! ## Runs -/

/-- States that steps reach from a state. -/
inductive Reaches : State → State → Prop where
  | refl (s : State) : Reaches s s
  | tail {s t u : State} (h : Reaches s t) (hstep : step t = .next u) : Reaches s u

/-- A run that has not met a fault (R191: "A faulted state is never a final state of a successful run"). -/
def State.Safe (s : State) : Prop := s.status ≠ .faulted

/-- The only successful end of a run (R191). -/
def State.Successful (s : State) : Prop := s.status = .halted

/-- `n` instructions in a row complete, none of which names register `i` as its destination (R28). -/
def CompletesWithout (i : Nat) : Nat → State → State → Prop
  | 0, s, t => s = t
  | n + 1, s, t => ∃ ins u, s.status = .running ∧ fetchDecode s = .ok ins ∧ ins.destination ≠ some i ∧
      step s = .next u ∧ u.status = .running ∧ CompletesWithout i n u t

/-! ## What a completed instruction leaves -/

/-- Byte `k` of a word, `v[8k+7:8k]` (R51). -/
def byteOfWord (v : Word) (k : Nat) : Byte := v.extractLsb' (8 * k) 8

/-- The four bytes of a word, least significant first (R51). -/
def bytesOfWord (v : Word) : List Byte := [byteOfWord v 0, byteOfWord v 1, byteOfWord v 2, byteOfWord v 3]

/-- R116 (a): register `j` as an instruction of `len` bytes reads it: `IP` gives the sequential address, every other
register what the last cycle left. -/
def State.seen (s : State) (len : Nat) (j : Nat) : Word :=
  if j = s.cfg.idxIP then s.pc + BitVec.ofNat 32 len else s.readReg j

/-- R118: what the end of the cycle leaves in register `j` when `execute` left `v` there. -/
def State.counted (s : State) (j : Nat) (v : Word) : Word :=
  if j = s.cfg.idxCYC then v + 1 else v

/-- The frame of a completed instruction of `len` bytes that is not Halt (R110): `pc` is `pcNext`; the status, the fault
record, the parameters and the number of registers are as before; every register but those of `dests` holds what it held,
less the mirror write and the count. -/
def CompletesTo (s t : State) (len : Nat) (pcNext : Word) (dests : List Nat) : Prop :=
  t.pc = pcNext ∧ t.status = s.status ∧ t.fault = s.fault ∧ t.cfg = s.cfg ∧ t.regs.length = s.regs.length ∧
  ∀ j, j < s.cfg.regCount → j ∉ dests → t.readReg j = s.counted j (s.seen len j)

/-- Every byte of memory reads as before. -/
def SameMemory (s t : State) : Prop := ∀ a, t.byteAt a = s.byteAt a

/-- The four bytes at `a` are those of `v`, and every other byte reads as before (R51, R54). -/
def StoresWord (s t : State) (a : Nat) (v : Word) : Prop :=
  (∀ k, k < 4 → t.byteAt (a + k) = byteOfWord v k) ∧ ∀ b, b < a ∨ a + 4 ≤ b → t.byteAt b = s.byteAt b

/-- The word whose four bytes stand at `a` (R51). -/
def State.wordAt (s : State) (a : Nat) : Word :=
  s.byteAt (a + 3) ++ s.byteAt (a + 2) ++ s.byteAt (a + 1) ++ s.byteAt a

/-- R186: the state a fault leaves: everything as the cycle found it, but for the status and the record. -/
def State.faultedWith (s : State) (kind : FaultKind) (code : Nat) (info : Int) : State :=
  { s with status := .faulted, fault := some { kind := kind, code := code, atPc := s.pc, info := info } }

/-- An access of four bytes at `a` lies in memory (R50). -/
def State.WordInMemory (s : State) (a : Int) : Prop := 0 ≤ a ∧ a + 4 ≤ s.cfg.memSize

end Sys2Proof.Machine
end

