-- ==== Sys2Proof/Certificates/Slice0/Obligations.lean ====
section
/-! DEFINITION. The statements for the provers. Each docstring names the rule of spec/ it formalises and, where a clause
rests on a decision of the spec (92_eei_decisions.md D<n>; log entry 18) or on a choice of this model
(notes/assumptions/<n>.md), says so.
All hold for every well-formed configuration (00_scope.md R5) unless they name the default one. -/

open Sys2Proof Sys2Proof.Machine

/-! ## Decoding and encoding (30_encoding.md) -/

/-- R82, R86, R92 and vectors of 95_test_vectors.md: a word of each instruction, written out byte by byte, decodes to the
instruction it stands for. The opcode bytes are the adopted ones (D1). -/
def Obligations.WrittenOutWordsDecode : Prop :=
  decode OpcodeMap.default [0x00] = .ok (.halt, []) ∧
  decode OpcodeMap.default [0x01, 0x64, 0x00, 0x00, 0x00] = .ok (.jump 100, []) ∧
  decode OpcodeMap.default [0x02, 0x01, 0x00, 0x00, 0x00, 0xFC, 0x0F, 0x00, 0x00] = .ok (.store 1 4092, []) ∧
  decode OpcodeMap.default [0x03, 0x00, 0x00, 0x00, 0x00, 0x7B, 0x00, 0x00, 0x00] = .ok (.load 0 123, []) ∧
  decode OpcodeMap.default [0x03, 0x00, 0x01, 0x00, 0x00, 0xFF, 0xFF, 0xFF, 0xFF] = .ok (.load 256 (-1), []) ∧
  decode OpcodeMap.default [0x04, 0x01, 0x00, 0x00, 0x00, 0xFC, 0xFF, 0xFF, 0xFF] = .ok (.loadIndirect 1 (-4), []) ∧
  decode OpcodeMap.default [0x05, 0x02, 0x00, 0x00, 0x00, 0x00, 0x00, 0x00, 0x00] = .ok (.moveRegister 2 0, []) ∧
  decode OpcodeMap.default [0x06] = .ok (.add, []) ∧
  decode OpcodeMap.default [0x07] = .ok (.subtract, []) ∧
  decode OpcodeMap.default [0x08] = .ok (.multiply, []) ∧
  decode OpcodeMap.default [0x09] = .ok (.divide, []) ∧
  decode OpcodeMap.default [0x0A] = .ok (.compareEqual, []) ∧
  decode OpcodeMap.default [0x0B] = .ok (.noOperation, []) ∧
  decode OpcodeMap.default [0x0C, 0x03, 0x00, 0x00, 0x00] = .ok (.push 3, []) ∧
  decode OpcodeMap.default [0x0D, 0x05, 0x00, 0x00, 0x00] = .ok (.pop 5, []) ∧
  decode OpcodeMap.default [0x0E] = .error (.illegalOpcode 0x0E) ∧
  decode OpcodeMap.default [0x0C, 0x03, 0x00] = .error (.truncated 0)

/-- R92, R80, R89: decoding an encoded instruction gives it back, whatever bytes follow it, for every instruction with
every operand value and every assignment of fourteen distinct opcode bytes. -/
def Obligations.DecodeInvertsEncode : Prop :=
  ∀ m : OpcodeMap, m.toList.Nodup → ∀ (i : Instr) (rest : List Byte), decode m (encode m i ++ rest) = .ok (i, rest)

/-- R80, R92: an instruction has exactly one encoding: whatever the decoder reads as `i` is the encoding of `i`. -/
def Obligations.EncodeInvertsDecode : Prop :=
  ∀ (m : OpcodeMap) (bytes : List Byte) (i : Instr) (rest : List Byte),
    decode m bytes = .ok (i, rest) → bytes = encode m i ++ rest

/-- R92, R82, R51: the bytes of every instruction under the adopted opcode bytes (D1): the opcode byte, then each field
little-endian, byte `k` of a field being its bits `8k+7 .. 8k`. -/
def Obligations.EncodingLayout : Prop :=
  encode OpcodeMap.default .halt = [0x00] ∧
  (∀ t, encode OpcodeMap.default (.jump t) = 0x01 :: bytesOfWord t) ∧
  (∀ r a, encode OpcodeMap.default (.store r a) = 0x02 :: (bytesOfWord r ++ bytesOfWord a)) ∧
  (∀ r v, encode OpcodeMap.default (.load r v) = 0x03 :: (bytesOfWord r ++ bytesOfWord v)) ∧
  (∀ r a, encode OpcodeMap.default (.loadIndirect r a) = 0x04 :: (bytesOfWord r ++ bytesOfWord a)) ∧
  (∀ d s, encode OpcodeMap.default (.moveRegister d s) = 0x05 :: (bytesOfWord d ++ bytesOfWord s)) ∧
  encode OpcodeMap.default .add = [0x06] ∧
  encode OpcodeMap.default .subtract = [0x07] ∧
  encode OpcodeMap.default .multiply = [0x08] ∧
  encode OpcodeMap.default .divide = [0x09] ∧
  encode OpcodeMap.default .compareEqual = [0x0A] ∧
  encode OpcodeMap.default .noOperation = [0x0B] ∧
  (∀ r, encode OpcodeMap.default (.push r) = 0x0C :: bytesOfWord r) ∧
  (∀ r, encode OpcodeMap.default (.pop r) = 0x0D :: bytesOfWord r)

/-- R87: under the adopted opcode bytes, byte `b` is the `b`-th of the fourteen rows if `b <= 13`, and spells no
instruction otherwise: then the decoder rejects it by name, whatever follows. -/
def Obligations.OpcodeByteDecidesTheInstruction : Prop :=
  (∀ b : Byte, OpcodeMap.default.opcodeOf b =
    if b.toNat ≤ 13 then
      [Opcode.halt, Opcode.jump, Opcode.store, Opcode.load, Opcode.loadIndirect, Opcode.moveRegister, Opcode.add,
        Opcode.subtract, Opcode.multiply, Opcode.divide, Opcode.compareEqual, Opcode.noOperation, Opcode.push,
        Opcode.pop][b.toNat]?
    else none) ∧
  (∀ (b : Byte) (rest : List Byte), b.toNat ≤ 13 → ∀ i r, decode OpcodeMap.default (b :: rest) = .ok (i, r) →
    OpcodeMap.default.opcodeOf b = some i.opcode) ∧
  (∀ (b : Byte) (rest : List Byte), 14 ≤ b.toNat → decode OpcodeMap.default (b :: rest) = .error (.illegalOpcode b))

/-! ## The step: fetch, decode, dispatch (40_fetch_decode_cycle.md) -/

/-- R110, R112, R115: a step of a running machine is the meaning of the instruction at `pc`, and nothing else is added
around it: said of what the decoder reads from the bytes at `pc`, and of the bytes of an encoding placed there. -/
def Obligations.StepRunsTheDecodedInstruction : Prop :=
  ∀ s : State, s.WF → s.status = .running →
    (∀ i rest, decode s.cfg.opc (bytesAtPc s) = .ok (i, rest) → step s = exec i s) ∧
    (∀ i : Instr, 0 ≤ s.pc.toInt → s.pc.toInt + i.length ≤ s.cfg.memSize →
      (∀ k, k < i.length → (encode s.cfg.opc i)[k]? = some (s.byteAt (s.pc.toNat + k))) → step s = exec i s)

/-- R83, R111, R112: the fetch unit, which reads each field through `MemRead`, agrees with the decoder on the bytes at
`pc`, in what it reads and in what it raises: MemoryFault at `pc` where there is no byte, DecodeFault for a byte that is no
opcode, MemoryFault at the start of the field that runs past the end of memory (D5, D11). -/
def Obligations.FetchUnitAgreesWithDecoder : Prop :=
  ∀ s : State, s.WF →
    (∀ i, fetchDecode s = .ok i ↔ ∃ rest, decode s.cfg.opc (bytesAtPc s) = .ok (i, rest)) ∧
    (fetchDecode s = .error (.memoryFault s.pc.toInt) ↔ decode s.cfg.opc (bytesAtPc s) = .error .noBytes) ∧
    (∀ b, fetchDecode s = .error (.decodeFault b) ↔ decode s.cfg.opc (bytesAtPc s) = .error (.illegalOpcode b)) ∧
    (∀ k : Nat, fetchDecode s = .error (.memoryFault (s.pc.toInt + 1 + 4 * k)) ↔
      decode s.cfg.opc (bytesAtPc s) = .error (.truncated k))

/-- R187 steps 1 to 4, R91, R111, R112 (D5, D10, D11, D12): the faults of the fetch, each with its record, in the order in which
they are checked. -/
def Obligations.FetchFaultsInOrder : Prop :=
  ∀ s : State, s.WF → s.status = .running →
    (¬ (0 ≤ s.pc.toInt ∧ s.pc.toInt < s.cfg.memSize) → step s = .next (s.faultedWith .memoryFault 3 s.pc.toInt)) ∧
    (0 ≤ s.pc.toInt → s.pc.toInt < s.cfg.memSize →
      (s.byteAt s.pc.toNat ∉ s.cfg.opc.toList →
        step s = .next (s.faultedWith .decodeFault 1 (s.byteAt s.pc.toNat).toNat)) ∧
      (∀ i : Instr, s.byteAt s.pc.toNat = s.cfg.opc.byteOf i.opcode →
        (1 ≤ i.fields.length → s.cfg.memSize < s.pc.toInt + 5 →
          step s = .next (s.faultedWith .memoryFault 3 (s.pc.toInt + 1))) ∧
        (i.fields.length = 2 → s.pc.toInt + 5 ≤ s.cfg.memSize → s.cfg.memSize < s.pc.toInt + 9 →
          step s = .next (s.faultedWith .memoryFault 3 (s.pc.toInt + 5)))))

/-- R181 (D1, D10, D12): under the adopted opcode bytes, DecodeFault is raised exactly when the byte at `pc` is 14 or more, with that byte
and that `pc` recorded; no other step of a running machine raises it, whatever the operands. -/
def Obligations.DecodeFaultExactlyOnIllegalByte : Prop :=
  ∀ s : State, s.WF → s.cfg.opc = OpcodeMap.default → s.status = .running →
    (0 ≤ s.pc.toInt → s.pc.toInt < s.cfg.memSize → 14 ≤ (s.byteAt s.pc.toNat).toNat →
      step s = .next (s.faultedWith .decodeFault 1 (s.byteAt s.pc.toNat).toNat)) ∧
    (∀ t r, step s = .next t → t.fault = some r → r.kind = .decodeFault →
      0 ≤ s.pc.toInt ∧ s.pc.toInt < s.cfg.memSize ∧ 14 ≤ (s.byteAt s.pc.toNat).toNat)

/-- R117 (D5, D10, D12): at the end of a completed cycle `pc` is the Jump target for Jump, as it was for Halt, and the sequential address
for every other instruction, which does not wrap and is at most `N`; a faulting cycle leaves it; and nothing is checked when
it is written: a `pc` outside memory faults at the next fetch. -/
def Obligations.ProgramCounterUpdate : Prop :=
  ∀ (s t : State) (i : Instr), s.WF → s.status = .running → fetchDecode s = .ok i → step s = .next t →
    (t.status = .faulted → t.pc = s.pc) ∧
    (t.status ≠ .faulted →
      match i with
      | .halt => t.pc = s.pc
      | .jump target => t.pc = target
      | _ => t.pc.toInt = s.pc.toInt + 1 + 4 * i.fields.length ∧ t.pc.toInt ≤ s.cfg.memSize) ∧
    (t.status = .running → ¬ (0 ≤ t.pc.toInt ∧ t.pc.toInt < t.cfg.memSize) →
      step t = .next (t.faultedWith .memoryFault 3 t.pc.toInt))

/-- R116 (b) to (e), R27 (D6): the mirror register after a cycle: the new `pc` if the instruction neither wrote `IP` nor was
a Jump; the address after the Jump for a Jump; `pc` for a Halt; as before for a fault and for `initialize()`. -/
def Obligations.MirrorRegisterAfterACycle : Prop :=
  (∀ (s t : State) (i : Instr), s.WF → s.status = .running → fetchDecode s = .ok i → step s = .next t →
    (t.status = .faulted → t.regIP = s.regIP) ∧
    (i = .halt → t.regIP = s.pc) ∧
    (∀ target, i = .jump target → t.regIP = s.pc + 5) ∧
    (t.status ≠ .faulted → (∀ target, i ≠ .jump target) → i.destination ≠ some s.cfg.idxIP → t.regIP = t.pc)) ∧
  (∀ s : State, s.WF → s.hostInitialize.regIP = s.regIP)

/-- R28, R118 (D15; 90_conflicts.md C5): `n` completed instructions, none of which names `CYC` as its destination, add `n`
to it; a cycle that faults or executes Halt does not count; `initialize()` resets it. -/
def Obligations.CycleCounterCountsCompletedInstructions : Prop :=
  (∀ (n : Nat) (s t : State), s.WF → CompletesWithout s.cfg.idxCYC n s t → t.regCYC = s.regCYC + BitVec.ofNat 32 n) ∧
  (∀ s t : State, s.WF → step s = .next t → t.status ≠ .running → t.regCYC = s.regCYC) ∧
  (∀ s : State, s.WF → s.hostInitialize.regCYC = 0)

/-- R119, and for the third outcome, which the spec marks as its own (D10, log entry 18), R15 and R186: a cycle of a running machine has one of three outcomes: `halt` exactly if Halt was executed, `fault` with the
record just made exactly if a fault was raised, `continue` otherwise. -/
def Obligations.CycleOutcomes : Prop :=
  ∀ s : State, s.status = .running →
    (s.cycle.2 = .halt ↔ fetchDecode s = .ok .halt) ∧
    (∀ r, s.cycle.2 = .fault (some r) ↔ s.cycle.1.status = .faulted ∧ s.cycle.1.fault = some r) ∧
    (s.cycle.2 = .goOn ∨ s.cycle.2 = .halt ∨ ∃ r, s.cycle.2 = .fault (some r))

/-- R120, R190, R191 (D20, D21): a halted or faulted machine has no step, and `cycle()` changes nothing and returns `halt`,
or the recorded fault, again. That "no step" is the interface's outcome `fault` is this model's choice (log entry 5). -/
def Obligations.StoppedMachineHasNoStep : Prop :=
  ∀ s : State,
    (s.status = .halted → step s = .fault .halted ∧ s.cycle = (s, .halt)) ∧
    (s.status = .faulted → step s = .fault (.faulted s.fault) ∧ s.cycle = (s, .fault s.fault))

/-- R30, R122 (D20, D21, D28): a machine has a next state exactly while it is RUNNING; it becomes HALTED exactly by executing
Halt, and FAULTED exactly by a fault, whose record is then there. -/
def Obligations.StatusTransitions : Prop :=
  ∀ s : State, s.WF →
    (s.status = .running ↔ ∃ t, step s = .next t) ∧
    (∀ t, step s = .next t →
      (t.status = .halted ↔ fetchDecode s = .ok .halt) ∧ (t.status = .faulted ↔ ∃ r, t.fault = some r))

/-! ## Control instructions (41_control.md) -/

/-- R130 (D6, D20): Halt sets the status and writes the mirror with `pc` itself; `pc`, `CYC`, every other register and memory
stay. -/
def Obligations.HaltCompletes : Prop :=
  ∀ s : State, s.WF → ∃ t, exec .halt s = .next t ∧ t.status = .halted ∧ t.pc = s.pc ∧ t.fault = s.fault ∧
    t.cfg = s.cfg ∧ t.regs.length = s.regs.length ∧
    (∀ j, j < s.cfg.regCount → t.readReg j = if j = s.cfg.idxIP then s.pc else s.readReg j) ∧ SameMemory s t

/-- R131, R133 (D5, D6): Jump sets `pc` to its operand, whatever it is; the mirror holds the address after the Jump; every
other register but `CYC` and memory stay. -/
def Obligations.JumpCompletes : Prop :=
  ∀ (s : State) (target : Word), s.WF →
    ∃ t, exec (.jump target) s = .next t ∧ CompletesTo s t 5 target [] ∧ SameMemory s t

/-- R132: NoOperation is the byte `0B`; it completes in every state and changes only `pc`, `IP` and `CYC`. The values of `IP`
and `CYC` rest on R114 (D6) and R118 (D15), which the spec marks as its own (log entry 18). -/
def Obligations.NoOperationCompletes : Prop :=
  encode OpcodeMap.default .noOperation = [0x0B] ∧
  ∀ s : State, s.WF → ∃ t, exec .noOperation s = .next t ∧ CompletesTo s t 1 (s.pc + 1) [] ∧ SameMemory s t ∧
    t.regIP = s.pc + 1 ∧ t.regCYC = s.regCYC + 1

/-! ## Data movement (42_data_movement.md) -/

/-- R140, R187 (D6, D10, D11, D12, D15): Store raises RegisterFault for a bad index whatever the address, then MemoryFault for a bad
address, read as `u32`; otherwise it stores the register, as the instruction reads it, at that address, and no register but
`IP` and `CYC` changes. -/
def Obligations.StoreRule : Prop :=
  ∀ (s : State) (r addr : Word), s.WF →
    (s.cfg.regCount ≤ r.toNat → exec (.store r addr) s = .next (s.faultedWith .registerFault 2 r.toNat)) ∧
    (r.toNat < s.cfg.regCount → ¬ s.WordInMemory (addressU32 addr) →
      exec (.store r addr) s = .next (s.faultedWith .memoryFault 3 addr.toNat)) ∧
    (r.toNat < s.cfg.regCount → s.WordInMemory (addressU32 addr) →
      ∃ t, exec (.store r addr) s = .next t ∧ CompletesTo s t 9 (s.pc + 9) [] ∧
        ∀ a : Nat, addressU32 addr = a → StoresWord s t a (s.seen 9 r.toNat))

/-- R141 (D4, D6, D10, D12, D15): Load is `03 le32(r) le32(imm)`; it raises RegisterFault for a bad index; otherwise it writes the literal, whatever
it is, into the register, and memory stays. -/
def Obligations.LoadRule : Prop :=
  ∀ (s : State) (r imm : Word), s.WF →
    encode OpcodeMap.default (.load r imm) = 0x03 :: (bytesOfWord r ++ bytesOfWord imm) ∧
    (s.cfg.regCount ≤ r.toNat → exec (.load r imm) s = .next (s.faultedWith .registerFault 2 r.toNat)) ∧
    (r.toNat < s.cfg.regCount →
      ∃ t, exec (.load r imm) s = .next t ∧ CompletesTo s t 9 (s.pc + 9) [r.toNat] ∧
        t.readReg r.toNat = s.counted r.toNat imm ∧ SameMemory s t)

/-- R142, R187 (D6, D10, D11, D12, D15, D18): LoadIndirect raises RegisterFault for a bad index whatever the address, then MemoryFault
for a bad address, read as `i32`; otherwise it writes the word at that address into the register, and memory stays. -/
def Obligations.LoadIndirectRule : Prop :=
  ∀ (s : State) (r addr : Word), s.WF →
    (s.cfg.regCount ≤ r.toNat → exec (.loadIndirect r addr) s = .next (s.faultedWith .registerFault 2 r.toNat)) ∧
    (r.toNat < s.cfg.regCount → ¬ s.WordInMemory addr.toInt →
      exec (.loadIndirect r addr) s = .next (s.faultedWith .memoryFault 3 addr.toInt)) ∧
    (r.toNat < s.cfg.regCount → s.WordInMemory addr.toInt →
      ∃ t, exec (.loadIndirect r addr) s = .next t ∧ CompletesTo s t 9 (s.pc + 9) [r.toNat] ∧
        t.readReg r.toNat = s.counted r.toNat (s.wordAt addr.toNat) ∧ SameMemory s t)

/-- R143, R187 (D6, D10, D11, D12, D15): MoveRegister checks the destination index, then the source index; otherwise it copies the
source, as the instruction reads it, into the destination, and memory stays. -/
def Obligations.MoveRegisterRule : Prop :=
  ∀ (s : State) (rd rs : Word), s.WF →
    (s.cfg.regCount ≤ rd.toNat → exec (.moveRegister rd rs) s = .next (s.faultedWith .registerFault 2 rd.toNat)) ∧
    (rd.toNat < s.cfg.regCount → s.cfg.regCount ≤ rs.toNat →
      exec (.moveRegister rd rs) s = .next (s.faultedWith .registerFault 2 rs.toNat)) ∧
    (rd.toNat < s.cfg.regCount → rs.toNat < s.cfg.regCount →
      ∃ t, exec (.moveRegister rd rs) s = .next t ∧ CompletesTo s t 9 (s.pc + 9) [rd.toNat] ∧
        t.readReg rd.toNat = s.counted rd.toNat (s.seen 9 rs.toNat) ∧ SameMemory s t)

/-- R140, R142 (95_test_vectors.md vector S3, 90_conflicts.md C6): Store, then LoadIndirect at the same address, leaves in
the second register the value the first had when the Store read it (plus the count if that register is `CYC`, D15). -/
def Obligations.StoreThenLoadIndirectReadsBack : Prop :=
  ∀ (s : State) (r r2 addr : Word), s.WF → r.toNat < s.cfg.regCount → r2.toNat < s.cfg.regCount →
    addr.toNat + 4 ≤ s.cfg.memSize →
    ∃ t u, exec (.store r addr) s = .next t ∧ exec (.loadIndirect r2 addr) t = .next u ∧
      u.status = s.status ∧ u.readReg r2.toNat = s.counted r2.toNat (s.seen 9 r.toNat)

/-- R65, R63, R59, with R140 and R165 for what is stored (D6, D14, D22): a word that a Store or a Push puts anywhere over the
next instruction is what the next step fetches. If the bytes from the next address up, the stored ones where the word
reaches and the old ones elsewhere, are the encoding of an instruction `i`, then the Store or Push completes and the next
step runs `i`. -/
def Obligations.StoredWordIsTheNextInstruction : Prop :=
  ∀ (s : State) (writer i : Instr) (a : Nat) (v : Word), s.WF → s.status = .running → fetchDecode s = .ok writer →
    ((∃ r addr, writer = .store r addr ∧ r.toNat < s.cfg.regCount ∧ addressU32 addr = a ∧ v = s.seen 9 r.toNat) ∨
      (∃ r, writer = .push r ∧ r.toNat < s.cfg.regCount ∧ (pushPointer s).toInt = a ∧
        v = if r.toNat = s.cfg.idxSP then s.regSP - 4 else s.seen 5 r.toNat)) →
    s.WordInMemory a → s.pc.toInt + writer.length + i.length ≤ s.cfg.memSize →
    (∀ k, k < i.length → (encode s.cfg.opc i)[k]? =
      some (if a ≤ s.pc.toNat + writer.length + k ∧ s.pc.toNat + writer.length + k < a + 4
        then byteOfWord v (s.pc.toNat + writer.length + k - a)
        else s.byteAt (s.pc.toNat + writer.length + k))) →
    ∃ t, step s = .next t ∧ t.status = .running ∧ t.pc = s.pc + BitVec.ofNat 32 writer.length ∧ step t = exec i t

/-! ## Arithmetic (43_arithmetic.md) -/

/-- R151, R152, R153, R156 (D6, D7, D15): Add, Subtract and Multiply complete under `ARITH_OVERFLOW = wrap`, and under either
policy when the exact result is in `i32`; they leave in `A` the exact result reduced modulo `2^32` into `i32`, which is the
exact result when that is in `i32`; no register but `A`, `IP` and `CYC` changes, and memory stays. -/
def Obligations.AddSubtractMultiplyComplete : Prop :=
  ∀ (s : State) (i : Instr) (exact : Int), s.WF →
    (i = .add ∧ exact = s.regA.toInt + s.regB.toInt) ∨ (i = .subtract ∧ exact = s.regA.toInt - s.regB.toInt) ∨
      (i = .multiply ∧ exact = s.regA.toInt * s.regB.toInt) →
    s.cfg.arithOverflow = .wrap ∨ (-2147483648 ≤ exact ∧ exact ≤ 2147483647) →
    ∃ t, exec i s = .next t ∧ CompletesTo s t 1 (s.pc + 1) [s.cfg.idxA] ∧
      t.regA.toInt = Int.bmod exact (2 ^ 32) ∧
      (-2147483648 ≤ exact ∧ exact ≤ 2147483647 → t.regA.toInt = exact) ∧ SameMemory s t

/-- R156, R184 (D7, D10, D12): under `ARITH_OVERFLOW = fault` an exact result outside `i32` raises ArithmeticFault with `info` 2 and
nothing is written. -/
def Obligations.ArithmeticOverflowFaults : Prop :=
  ∀ (s : State) (i : Instr) (exact : Int), s.WF →
    (i = .add ∧ exact = s.regA.toInt + s.regB.toInt) ∨ (i = .subtract ∧ exact = s.regA.toInt - s.regB.toInt) ∨
      (i = .multiply ∧ exact = s.regA.toInt * s.regB.toInt) →
    s.cfg.arithOverflow = .fault → ¬ (-2147483648 ≤ exact ∧ exact ≤ 2147483647) →
    exec i s = .next (s.faultedWith .arithmeticFault 4 2)

/-- R154, R157 (D6, D8, D15): with a divisor that is not 0, and not on `INT_MIN / -1`, Divide leaves in `A` a quotient `q` and
in `C` a remainder `r` of the old `A` and `B` with `a = q * b + r`, `|r| < |b|`, and `r` 0 or of the dividend's sign: the
quotient rounded toward zero. No register but `A`, `C`, `IP` and `CYC` changes, and memory stays. -/
def Obligations.DivideCompletes : Prop :=
  ∀ s : State, s.WF → s.regB.toInt ≠ 0 → ¬ (s.regA.toInt = -2147483648 ∧ s.regB.toInt = -1) →
    ∃ t, exec .divide s = .next t ∧ CompletesTo s t 1 (s.pc + 1) [s.cfg.idxA, s.cfg.idxC] ∧
      s.regA.toInt = t.regA.toInt * s.regB.toInt + t.regC.toInt ∧
      |t.regC.toInt| < |s.regB.toInt| ∧
      (t.regC.toInt = 0 ∨ (0 < t.regC.toInt ↔ 0 < s.regA.toInt)) ∧ SameMemory s t

/-- R154, R184 (D9, D10, D12): a divisor of 0 raises ArithmeticFault with `info` 0; `INT_MIN / -1` raises it with `info` 1 under
`DIV_OVERFLOW = fault`, and leaves `A = INT_MIN` and `C = 0` under `wrap`. -/
def Obligations.DivideCorners : Prop :=
  ∀ s : State, s.WF →
    (s.regB.toInt = 0 → exec .divide s = .next (s.faultedWith .arithmeticFault 4 0)) ∧
    (s.regA.toInt = -2147483648 → s.regB.toInt = -1 → s.cfg.divOverflow = .fault →
      exec .divide s = .next (s.faultedWith .arithmeticFault 4 1)) ∧
    (s.regA.toInt = -2147483648 → s.regB.toInt = -1 → s.cfg.divOverflow = .wrap →
      ∃ t, exec .divide s = .next t ∧ CompletesTo s t 1 (s.pc + 1) [s.cfg.idxA, s.cfg.idxC] ∧
        t.regA.toInt = -2147483648 ∧ t.regC.toInt = 0 ∧ SameMemory s t)

/-- R157 (D8): the rows of the table of divisions that complete: dividend, divisor, quotient, remainder. -/
def Obligations.DivisionTable : Prop :=
  ∀ row ∈ ([(7, 2, 3, 1), (-7, 2, -3, -1), (7, -2, -3, 1), (-7, -2, 3, -1), (5, 3, 1, 2), (0, 5, 0, 0), (0, -5, 0, 0),
      (3, 7, 0, 3), (-3, 7, 0, -3), (6, 3, 2, 0), (2147483647, -1, -2147483647, 0), (-2147483648, 1, -2147483648, 0),
      (-2147483648, 2, -1073741824, 0), (-2147483648, -2147483648, 1, 0)] : List (Int × Int × Int × Int)),
    ∀ s : State, s.WF → s.regA.toInt = row.1 → s.regB.toInt = row.2.1 →
      ∃ t, exec .divide s = .next t ∧ t.regA.toInt = row.2.2.1 ∧ t.regC.toInt = row.2.2.2

/-- R155, in the cycle of R110, R114 and R118 (D6, D15, log entry 18): CompareEqual is the byte `0A`; it completes in every state, leaves 1 in `A` if `A` equals `B` as whole 32-bit values
and 0 if not, changes no other register but `IP` and `CYC`, and leaves memory. With 0 in `B` it inverts a 0 or 1 in `A`. -/
def Obligations.CompareEqualCompletes : Prop :=
  encode OpcodeMap.default .compareEqual = [0x0A] ∧
  ∀ s : State, s.WF → ∃ t, exec .compareEqual s = .next t ∧ CompletesTo s t 1 (s.pc + 1) [s.cfg.idxA] ∧
    (s.regA.toInt = s.regB.toInt → t.regA = 1) ∧ (s.regA.toInt ≠ s.regB.toInt → t.regA = 0) ∧
    (s.regB = 0 → s.regA = 1 → t.regA = 0) ∧ (s.regB = 0 → s.regA = 0 → t.regA = 1) ∧ SameMemory s t

/-! ## Stack (44_stack.md) -/

/-- R165, R187 (D6, D10, D11, D12, D14, D15): Push raises RegisterFault for a bad index, then MemoryFault if `SP - 4` is no address of a
word, with nothing written; otherwise it decrements `SP` by 4 and stores the register at the new `SP`: the decremented value
for `SP` itself, the next address for `IP`. No register but `SP`, `IP` and `CYC` changes. -/
def Obligations.PushRule : Prop :=
  ∀ (s : State) (r : Word), s.WF →
    (s.cfg.regCount ≤ r.toNat → exec (.push r) s = .next (s.faultedWith .registerFault 2 r.toNat)) ∧
    (r.toNat < s.cfg.regCount → ¬ s.WordInMemory (pushPointer s).toInt →
      exec (.push r) s = .next (s.faultedWith .memoryFault 3 (pushPointer s).toInt)) ∧
    (r.toNat < s.cfg.regCount → s.WordInMemory (pushPointer s).toInt →
      ∃ t, exec (.push r) s = .next t ∧ CompletesTo s t 5 (s.pc + 5) [s.cfg.idxSP] ∧ t.regSP = s.regSP - 4 ∧
        ∀ a : Nat, (pushPointer s).toInt = a →
          StoresWord s t a (if r.toNat = s.cfg.idxSP then s.regSP - 4 else s.seen 5 r.toNat))

/-- R166, R187 (D6, D10, D11, D12, D14, D15): Pop raises RegisterFault for a bad index, then MemoryFault if `SP` is no address of a word;
otherwise it writes the word at `SP` into the register and adds 4 to `SP`: to the loaded value if the register is `SP`. Memory
stays, and no register but the operand, `SP`, `IP` and `CYC` changes. -/
def Obligations.PopRule : Prop :=
  ∀ (s : State) (r : Word), s.WF →
    (s.cfg.regCount ≤ r.toNat → exec (.pop r) s = .next (s.faultedWith .registerFault 2 r.toNat)) ∧
    (r.toNat < s.cfg.regCount → ¬ s.WordInMemory s.regSP.toInt →
      exec (.pop r) s = .next (s.faultedWith .memoryFault 3 s.regSP.toInt)) ∧
    (r.toNat < s.cfg.regCount → s.WordInMemory s.regSP.toInt →
      ∃ t, exec (.pop r) s = .next t ∧ CompletesTo s t 5 (s.pc + 5) [r.toNat, s.cfg.idxSP] ∧ SameMemory s t ∧
        (r.toNat ≠ s.cfg.idxSP →
          t.readReg r.toNat = s.counted r.toNat (s.wordAt s.regSP.toNat) ∧ t.regSP = s.regSP + 4) ∧
        (r.toNat = s.cfg.idxSP → t.regSP = s.wordAt s.regSP.toNat + 4))

/-- R167 (D14): a Push that does not fault, followed at once by a Pop of the same register, restores the register and the
stack pointer, `SP` itself included. The two exceptions: `CYC` ends one higher than the pushed value, by the count of R118
(D15), and `IP` ends with the value the Push read, `pc + 5` of the Push, which the Pop writes after its own mirror write
(R114, R116; D6); R167 itself says only that the next mirror write replaces it. D6, D14 and D15 are log entry 18. -/
def Obligations.PushThenPopRestores : Prop :=
  ∀ (s : State) (r : Word), s.WF → r.toNat < s.cfg.regCount → s.WordInMemory (pushPointer s).toInt →
    ∃ t u, exec (.push r) s = .next t ∧ exec (.pop r) t = .next u ∧ u.status = s.status ∧ u.regSP = s.regSP ∧
      (r.toNat ≠ s.cfg.idxCYC → r.toNat ≠ s.cfg.idxIP → u.readReg r.toNat = s.readReg r.toNat) ∧
      (r.toNat = s.cfg.idxCYC → u.regCYC = s.regCYC + 1) ∧ (r.toNat = s.cfg.idxIP → u.regIP = s.pc + 5)

/-! ## Faults (60_exceptions.md) -/

/-- R186, R185, R180 (D10, D12, D13): a step that raises a fault leaves `pc`, every register, every byte and the parameters as
they were, and records the kind, its code, and the `pc` of the faulting instruction. -/
def Obligations.FaultEntryIsPrecise : Prop :=
  ∀ s t : State, step s = .next t → t.status = .faulted →
    ∃ r : FaultRecord, t = { s with status := .faulted, fault := some r } ∧ r.atPc = s.pc ∧
      r.code = match r.kind with
        | .decodeFault => 1
        | .registerFault => 2
        | .memoryFault => 3
        | .arithmeticFault => 4

/-- R197, R180 (D12): which instruction can raise which fault in its own `execute`. -/
def Obligations.FaultsOfEachInstruction : Prop :=
  ∀ (s t : State) (i : Instr) (r : FaultRecord), s.status = .running → exec i s = .next t → t.status = .faulted →
    t.fault = some r →
    match i with
    | .halt => False
    | .jump _ => False
    | .noOperation => False
    | .compareEqual => False
    | .add => r.kind = .arithmeticFault ∧ s.cfg.arithOverflow = .fault
    | .subtract => r.kind = .arithmeticFault ∧ s.cfg.arithOverflow = .fault
    | .multiply => r.kind = .arithmeticFault ∧ s.cfg.arithOverflow = .fault
    | .divide => r.kind = .arithmeticFault
    | .load _ _ => r.kind = .registerFault
    | .moveRegister _ _ => r.kind = .registerFault
    | .store _ _ => r.kind = .registerFault ∨ r.kind = .memoryFault
    | .loadIndirect _ _ => r.kind = .registerFault ∨ r.kind = .memoryFault
    | .push _ => r.kind = .registerFault ∨ r.kind = .memoryFault
    | .pop _ => r.kind = .registerFault ∨ r.kind = .memoryFault

/-- R84, R89: for the instructions whose only checks are those of their operand fields, a running machine completes the
instruction exactly when every operand is legal for its role. -/
def Obligations.LegalOperandsAreExactlyThoseThatComplete : Prop :=
  ∀ (s : State) (i : Instr), s.WF → s.status = .running →
    i.opcode ∈ [Opcode.jump, Opcode.store, Opcode.load, Opcode.loadIndirect, Opcode.moveRegister] →
    ((∃ t, exec i s = .next t ∧ t.status = .running) ↔ i.wf s.cfg = true)

/-! ## Memory (20_memory.md) -/

/-- R53: `MemRead`, `read_u8` and the two readings of the 4-byte read. -/
def Obligations.MemReadRule : Prop :=
  ∀ (s : State) (a : Int) (n : Nat), n = 1 ∨ n = 4 →
    (¬ (0 ≤ a ∧ a + n ≤ s.cfg.memSize) → memRead s a n = .error (.memoryFault a)) ∧
    (0 ≤ a → a + n ≤ s.cfg.memSize →
      memRead s a n = .ok (∑ k ∈ Finset.range n, (s.byteAt (a.toNat + k)).toNat * 256 ^ k) ∧
      (∀ v, memRead s a n = .ok v → v < 256 ^ n) ∧
      (∀ v, memRead s a 1 = .ok v → readU8 s a = .ok (BitVec.ofNat 8 v) ∧ (BitVec.ofNat 8 v).toNat = v) ∧
      (∀ v, memRead s a 4 = .ok v → ∃ w, readWord s a = .ok w ∧ w.toNat = v ∧ w.toInt = Int.bmod v (2 ^ 32)))

/-- R54: `MemWrite`: a failing check writes nothing; otherwise exactly the `n` bytes change, byte `k` becoming
`(u32of(v) >> 8k) mod 256`, and no other state does. -/
def Obligations.MemWriteRule : Prop :=
  ∀ (s : State) (a : Int) (n : Nat) (v : Word), s.WF → n = 1 ∨ n = 4 →
    (∀ w, writeWord s a w = memWrite s a 4 w) ∧
    (∀ b : Byte, writeU8 s a b = memWrite s a 1 (BitVec.ofNat 32 b.toNat)) ∧
    (¬ (0 ≤ a ∧ a + n ≤ s.cfg.memSize) → memWrite s a n v = .error (.memoryFault a)) ∧
    (0 ≤ a → a + n ≤ s.cfg.memSize →
      ∃ t, memWrite s a n v = .ok t ∧
        (∀ k, k < n → (t.byteAt (a.toNat + k)).toNat = (v.toNat >>> (8 * k)) % 256) ∧
        (∀ b, b < a.toNat ∨ a.toNat + n ≤ b → t.byteAt b = s.byteAt b) ∧
        t.pc = s.pc ∧ t.regs = s.regs ∧ t.status = s.status ∧ t.fault = s.fault ∧ t.cfg = s.cfg)

/-- R51: little-endian everywhere: a word written has byte `k` of it at `a + k`, and reads back; four bytes `FF` read as -1
signed and 4294967295 unsigned; and an operand field of the instruction stream is read in the same order. -/
def Obligations.LittleEndianWords : Prop :=
  (∀ (s : State) (a : Int) (v : Word), s.WF → s.WordInMemory a →
    ∃ t, writeWord s a v = .ok t ∧ StoresWord s t a.toNat v ∧ readWord t a = .ok v) ∧
  (∀ (s : State) (a : Int), s.WordInMemory a → (∀ k, k < 4 → s.byteAt (a.toNat + k) = 0xFF) →
    ∃ w, readWord s a = .ok w ∧ w.toInt = -1 ∧ w.toNat = 4294967295) ∧
  (∀ (s : State) (k : Nat) (v : Word), s.WordInMemory (s.pc.toInt + 1 + 4 * k) →
    (∀ b, b < 4 → s.byteAt ((s.pc.toInt + 1 + 4 * k).toNat + b) = byteOfWord v b) → fetchField s k = .ok v)

/-- R61 (D18): the signed and the unsigned reading of an address field agree on which addresses are in memory, and a field
whose bit 31 is set is in memory under neither. -/
def Obligations.AddressSignednessUnobservable : Prop :=
  ∀ (s : State) (f : Word), s.WF →
    (s.WordInMemory (addressU32 f) ↔ s.WordInMemory (addressI32 f)) ∧
    (f.msb = true → ¬ s.WordInMemory (addressU32 f) ∧ ¬ s.WordInMemory (addressI32 f)) ∧
    (s.WordInMemory (addressU32 f) → addressU32 f = addressI32 f)

/-- R32, R56: only Store and Push change memory, and only the four bytes at the address they compute: every other
instruction, in every state, leaves every byte. -/
def Obligations.OnlyStoreAndPushWriteMemory : Prop :=
  ∀ (s t : State) (i : Instr), s.WF → exec i s = .next t →
    match i with
    | .store _ addr => ∀ a : Nat, addressU32 addr = a → ∀ b, b < a ∨ a + 4 ≤ b → t.byteAt b = s.byteAt b
    | .push _ => ∀ b : Nat, (b : Int) < (pushPointer s).toInt ∨ (pushPointer s).toInt + 4 ≤ b → t.byteAt b = s.byteAt b
    | _ => SameMemory s t

/-! ## Registers (10_state.md) -/

/-- R25, R29, R33, R186: the only registers an instruction can change, whether it completes or faults, are `IP`, `CYC`, the
destination it names, and the one its definition writes: `A`; `A` and `C` for Divide; `SP` for Push and Pop. -/
def Obligations.RegistersAnInstructionCanChange : Prop :=
  ∀ (s t : State) (i : Instr), s.WF → exec i s = .next t → ∀ j, j < s.cfg.regCount → j ≠ s.cfg.idxIP →
    j ≠ s.cfg.idxCYC → i.destination ≠ some j →
    (i.opcode ∈ [Opcode.add, Opcode.subtract, Opcode.multiply, Opcode.divide, Opcode.compareEqual] → j ≠ s.cfg.idxA) →
    (i = .divide → j ≠ s.cfg.idxC) → (i.opcode ∈ [Opcode.push, Opcode.pop] → j ≠ s.cfg.idxSP) →
    t.readReg j = s.readReg j

/-- R20: the parameters "never change during a run", and neither does the number of registers. -/
def Obligations.ParametersNeverChange : Prop :=
  ∀ s t : State, Reaches s t → t.cfg = s.cfg ∧ t.regs.length = s.regs.length

/-! ## Invariants -/

/-- R21, R23, R30, R31, R32, R34: every step keeps a machine well formed: as many registers as `REG_COUNT` says, memory in its
one canonical form inside `0 .. N-1`, and a fault record that is there exactly in FAULTED and tells a fault that can be
raised. -/
def Obligations.StepKeepsWellFormed : Prop :=
  ∀ s t : State, s.WF → step s = .next t → t.WF

/-- R34, R210: the machine right after reset is well formed. -/
def Obligations.ResetIsWellFormed : Prop := State.reset.WF

/-- R16, R17, R196, R212: the host's operations keep a machine well formed: power-on, `initialize()`, register access (with a
bad index as log entry 10 has it), and a load, in any status (log entry 13). The last clause is about the interface's
`withFetchWord`, which is no operation of the spec but the model's choice, and rests on its leaving out what would lie past
the end of memory (log entries 8 and 9). -/
def Obligations.HostOperationsKeepWellFormed : Prop :=
  (∀ c : Config, c.WF → (State.powerOn c).WF) ∧
  (∀ s : State, s.WF →
    s.hostInitialize.WF ∧ (∀ i, (s.hostRead i).2.WF) ∧ (∀ i v, (s.hostWrite i v).WF) ∧
    (∀ bytes t, s.load bytes = .ok t → t.WF) ∧ (∀ nbits w, (s.withFetchWord nbits w).WF))

/-! ## Reset and the host's operations (70_reset_and_hazards.md, 00_scope.md section 7) -/

/-- R210, R34 (D16, D17): power-on, for every configuration: `pc` 0, every byte 0, every register its `REG_INIT` but `CYC`,
which is 0 (log entry 4), RUNNING, no fault; and State.reset is the power-on of the default configuration (log entries 2
and 3). -/
def Obligations.PowerOnState : Prop :=
  (∀ c : Config, c.WF →
    (State.powerOn c).pc = 0 ∧ (∀ a, (State.powerOn c).byteAt a = 0) ∧ (State.powerOn c).regCYC = 0 ∧
    (∀ j, j < c.regCount → j ≠ c.idxCYC → c.regInit[j]? = some ((State.powerOn c).readReg j)) ∧
    (State.powerOn c).status = .running ∧ (State.powerOn c).fault = none) ∧
  State.reset = State.powerOn Config.default ∧ State.reset.regSP = 4096 ∧
  ∀ j, j ≠ 3 → State.reset.readReg j = 0

/-- R212 (D30): `initialize()` writes 0 to `pc` and `CYC`, makes HALTED RUNNING, leaves FAULTED, and writes nothing else. -/
def Obligations.InitializeRule : Prop :=
  ∀ s : State, s.WF →
    s.hostInitialize.pc = 0 ∧ s.hostInitialize.regCYC = 0 ∧
    (∀ j, j ≠ s.cfg.idxCYC → s.hostInitialize.readReg j = s.readReg j) ∧
    s.hostInitialize.mem = s.mem ∧ s.hostInitialize.fault = s.fault ∧ s.hostInitialize.cfg = s.cfg ∧
    (s.status = .faulted → s.hostInitialize.status = .faulted) ∧
    (s.status ≠ .faulted → s.hostInitialize.status = .running)

/-- R17, R211 (D17, D25): `load`, here in every status though the spec has it before the run (R67, R211), which is the model's
choice (log entry 13): `load` of an image longer than memory fails; otherwise the image stands from address 0 up and no
other byte and no other state changes. -/
def Obligations.LoadImageRule : Prop :=
  ∀ (s : State) (image : List Byte), s.WF →
    (s.cfg.memSize < image.length → s.load image = .error .imageTooLong) ∧
    (image.length ≤ s.cfg.memSize →
      ∃ t, s.load image = .ok t ∧ (∀ k, k < image.length → image[k]? = some (t.byteAt k)) ∧
        (∀ a, image.length ≤ a → t.byteAt a = s.byteAt a) ∧
        t.pc = s.pc ∧ t.regs = s.regs ∧ t.status = s.status ∧ t.fault = s.fault ∧ t.cfg = s.cfg)

/-- R12, R24, R31, R196 (D4, D10, D12): host register access in range, which changes nothing but the register written (the
fault record stays, R31), and the RegisterFault of one that is not, on a machine that is not
already FAULTED; on one that is, nothing changes (log entry 10, the model's reading). -/
def Obligations.HostRegisterAccess : Prop :=
  ∀ (s : State) (i : Int) (v : Word), s.WF →
    (0 ≤ i → i < s.cfg.regCount →
      s.hostRead i = (some (s.readReg i.toNat), s) ∧ (s.hostWrite i v).readReg i.toNat = v ∧
      (∀ j, j ≠ i.toNat → (s.hostWrite i v).readReg j = s.readReg j) ∧ (s.hostWrite i v).pc = s.pc ∧
      (s.hostWrite i v).mem = s.mem ∧ (s.hostWrite i v).status = s.status ∧ (s.hostWrite i v).fault = s.fault ∧
      (s.hostWrite i v).cfg = s.cfg) ∧
    (¬ (0 ≤ i ∧ i < s.cfg.regCount) → s.status ≠ .faulted →
      s.hostRead i = (none, s.faultedWith .registerFault 2 i) ∧ s.hostWrite i v = s.faultedWith .registerFault 2 i) ∧
    (¬ (0 ≤ i ∧ i < s.cfg.regCount) → s.status = .faulted → s.hostRead i = (none, s) ∧ s.hostWrite i v = s)

/-- R121, R190, R191: a run ends only in HALTED or in FAULTED with its record, in exactly one way whatever fuel the executor
takes (log entry 15), and does not depend on the `pc` and `CYC` the host left. -/
def Obligations.RunsEndHaltedOrFaulted : Prop :=
  (∀ (s t : State) (o : CycleResult), s.RunEnds t o →
    (o = .halt ∧ t.status = .halted) ∨ (o = .fault t.fault ∧ t.status = .faulted)) ∧
  (∀ (s t t' : State) (o o' : CycleResult), s.RunEnds t o → s.RunEnds t' o' → t = t' ∧ o = o') ∧
  (∀ (s t : State) (o : CycleResult) (a v : Word), s.RunEnds t o →
    ((s.setPc a).writeReg s.cfg.idxCYC v).RunEnds t o)

/-- R122, R131 (D28): a Jump to itself never ends: from a running machine with the bytes of `Jump p` at address `p = pc`, no
amount of fuel reaches a stop. -/
def Obligations.JumpToItselfNeverEnds : Prop :=
  ∀ (s : State) (fuel : Nat), s.WF → s.status = .running → 0 ≤ s.pc.toInt → s.pc.toInt + 5 ≤ s.cfg.memSize →
    (∀ k, k < 5 → (encode s.cfg.opc (.jump s.pc))[k]? = some (s.byteAt (s.pc.toNat + k))) →
    s.cyclesUntilStop fuel = none

/-- R90 (D1, D17): under the adopted opcode bytes a 0 byte at `pc` is Halt, and so the machine right after reset, with nothing
placed in its memory, halts at address 0 in one step. -/
def Obligations.ZeroByteHalts : Prop :=
  (∀ s : State, s.WF → s.cfg.opc = OpcodeMap.default → s.status = .running → 0 ≤ s.pc.toInt →
    s.pc.toInt < s.cfg.memSize → s.byteAt s.pc.toNat = 0 → step s = exec .halt s) ∧
  ∃ t, step State.reset = .next t ∧ t.status = .halted ∧ t.pc = 0 ∧ t.regCYC = 0

/-- The interface's placing of a program (log entries 8 and 9): where the whole of the longest instruction fits at `pc`, the
next step of a running machine runs exactly the instruction the decoder reads from the word. -/
def Obligations.PlacedWordRunsNext : Prop :=
  ∀ (s : State) (nbits w : Nat) (i : Instr) (rest : List Byte), s.WF → s.status = .running → 0 ≤ s.pc.toInt →
    s.pc.toInt + 9 ≤ s.cfg.memSize → decode s.cfg.opc (tableBytes nbits w) = .ok (i, rest) →
    step (s.withFetchWord nbits w) = exec i (s.withFetchWord nbits w)
end

