-- ==== Sys2Proof/Laws/Decode.lean ====
section
/-! SUPPORT. The opcode map and the byte order of operand fields: what each helper of the decoder and the encoder says. -/

namespace Sys2Proof

theorem Opcode.mem_all (op : Opcode) : op ∈ Opcode.all := by
  cases op <;> decide

theorem OpcodeMap.toList_eq_map (m : OpcodeMap) : m.toList = Opcode.all.map m.byteOf := rfl

/-- In a list where `f` takes no value twice, `find?` of a value finds the one element that has it. -/
theorem find?_of_nodup_map {α β : Type} [BEq β] [LawfulBEq β] (f : α → β) {l : List α} (h : (l.map f).Nodup) {a : α}
    (ha : a ∈ l) : l.find? (fun x => f x == f a) = some a := by
  induction l with
  | nil => simp at ha
  | cons x xs ih =>
    rw [List.map_cons, List.nodup_cons] at h
    by_cases hx : f x = f a
    · rcases List.mem_cons.1 ha with rfl | ha
      · simp
      · exact absurd (hx ▸ List.mem_map_of_mem ha) h.1
    · rcases List.mem_cons.1 ha with rfl | ha
      · exact absurd rfl hx
      · rw [List.find?_cons_of_neg (by simpa using hx), ih h.2 ha]

/-- The byte of an operation is read as that operation. -/
theorem OpcodeMap.opcodeOf_byteOf {m : OpcodeMap} (h : m.toList.Nodup) (op : Opcode) :
    m.opcodeOf (m.byteOf op) = some op :=
  find?_of_nodup_map m.byteOf (m.toList_eq_map ▸ h) op.mem_all

/-- A byte read as an operation is that operation's byte. -/
theorem OpcodeMap.byteOf_of_opcodeOf {m : OpcodeMap} {b : Byte} {op : Opcode} (h : m.opcodeOf b = some op) :
    m.byteOf op = b := by
  simpa using List.find?_some h

/-- A byte is read as no operation exactly when it is none of the fourteen. -/
theorem OpcodeMap.opcodeOf_eq_none {m : OpcodeMap} {b : Byte} : m.opcodeOf b = none ↔ b ∉ m.toList := by
  simp only [OpcodeMap.opcodeOf, List.find?_eq_none, OpcodeMap.toList_eq_map, List.mem_map, beq_iff_eq,
    not_exists, not_and]

theorem Instr.build_opcode (op : Opcode) (f0 f1 : Word) : (Instr.build op f0 f1).opcode = op := by
  cases op <;> rfl

theorem Instr.length_eq (i : Instr) : i.length = 1 + 4 * i.fields.length := by
  cases i <;> rfl

theorem le32_length (v : Word) : (le32 v).length = 4 := rfl

theorem encode_length (m : OpcodeMap) (i : Instr) : (encode m i).length = i.length := by
  cases i <;> rfl

/-- The four bytes of a word, read back, are the word. -/
theorem wordOfBytes_le32 (v : Word) :
    wordOfBytes (BitVec.ofNat 8 v.toNat) (BitVec.ofNat 8 (v.toNat / 256)) (BitVec.ofNat 8 (v.toNat / 65536))
      (BitVec.ofNat 8 (v.toNat / 16777216)) = v := by
  apply BitVec.eq_of_toNat_eq
  have := v.isLt
  simp only [wordOfBytes, BitVec.toNat_ofNat]
  omega

theorem takeWord_le32 (v : Word) (rest : List Byte) : takeWord (le32 v ++ rest) = some (v, rest) := by
  simp only [le32, List.cons_append, List.nil_append, takeWord, wordOfBytes_le32]

theorem toNat_wordOfBytes (b0 b1 b2 b3 : Byte) : (wordOfBytes b0 b1 b2 b3).toNat =
    b0.toNat + 256 * (b1.toNat + 256 * (b2.toNat + 256 * b3.toNat)) := by
  have h0 := b0.isLt
  have h1 := b1.isLt
  have h2 := b2.isLt
  have h3 := b3.isLt
  simp only [wordOfBytes, BitVec.toNat_ofNat]
  omega

/-- The word made of four bytes has those four bytes. -/
theorem le32_wordOfBytes (b0 b1 b2 b3 : Byte) : le32 (wordOfBytes b0 b1 b2 b3) = [b0, b1, b2, b3] := by
  have h0 := b0.isLt
  have h1 := b1.isLt
  have h2 := b2.isLt
  have h3 := b3.isLt
  simp only [le32, toNat_wordOfBytes, List.cons.injEq, and_true]
  refine ⟨?_, ?_, ?_, ?_⟩ <;> apply BitVec.eq_of_toNat_eq <;> simp only [BitVec.toNat_ofNat] <;> omega

theorem takeWord_eq_some {bs : List Byte} {v : Word} {rest : List Byte} (h : takeWord bs = some (v, rest)) :
    bs = le32 v ++ rest := by
  match bs, h with
  | b0 :: b1 :: b2 :: b3 :: r, h =>
    simp only [takeWord, Option.some.injEq, Prod.mk.injEq] at h
    obtain ⟨rfl, rfl⟩ := h
    simp [le32_wordOfBytes]

theorem takeWord_eq_none {bs : List Byte} : takeWord bs = none ↔ bs.length < 4 := by
  match bs with
  | [] => simp [takeWord]
  | [_] => simp [takeWord]
  | [_, _] => simp [takeWord]
  | [_, _, _] => simp [takeWord]
  | _ :: _ :: _ :: _ :: r => simp [takeWord]

end Sys2Proof
end

