-- ==== Sys2Proof/Laws/Memory.lean ====
section
/-! SUPPORT. The byte store: read after write, frames, and that every operation keeps the canonical form. -/

namespace Sys2Proof.Machine

@[simp] theorem Memory.get_nil (a : Nat) : Memory.get [] a = Memory.blankByte := rfl

@[simp] theorem Memory.get_cell (k : Nat) (v : Byte) (rest : Memory) (a : Nat) :
    Memory.get ((k, v) :: rest) a = if k = a then v else Memory.get rest a := rfl

@[simp] theorem Memory.wf_cell (k : Nat) (v : Byte) (rest : Memory) :
    Memory.wf ((k, v) :: rest) = true ↔
      v ≠ Memory.blankByte ∧ (∀ c ∈ rest, k < c.1) ∧ Memory.wf rest = true := by
  simp [Memory.wf, and_assoc]

theorem Memory.below_iff (m : Memory) (n : Nat) : m.below n = true ↔ ∀ c ∈ m, c.1 < n := by
  simp [Memory.below]

/-- An address below every cell is unlisted. -/
theorem Memory.get_of_lt {m : Memory} {a : Nat} (h : ∀ c ∈ m, a < c.1) : m.get a = Memory.blankByte := by
  induction m with
  | nil => rfl
  | cons c rest ih =>
    have hc := h c (by simp)
    rw [show c = (c.1, c.2) from rfl, Memory.get_cell, if_neg (by omega)]
    exact ih (fun d hd => h d (by simp [hd]))

theorem Memory.get_cons_other {a b : Nat} (v : Byte) (rest : Memory) (h : b ≠ a) :
    (Memory.cons a v rest).get b = rest.get b := by
  unfold Memory.cons
  split
  · rfl
  · simp [h.symm]

theorem Memory.get_cons_same {a : Nat} (v : Byte) {rest : Memory} (h : rest.get a = Memory.blankByte) :
    (Memory.cons a v rest).get a = v := by
  unfold Memory.cons
  split
  · rename_i hv
    rw [h, hv]
  · simp

theorem Memory.mem_cons {a : Nat} {v : Byte} {rest : Memory} {c : Host.Cell} (h : c ∈ Memory.cons a v rest) :
    c = (a, v) ∨ c ∈ rest := by
  unfold Memory.cons at h
  split at h
  · exact .inr h
  · simpa using h

theorem Memory.wf_cons {a : Nat} {v : Byte} {rest : Memory} (hr : rest.wf = true) (h : ∀ c ∈ rest, a < c.1) :
    (Memory.cons a v rest).wf = true := by
  unfold Memory.cons
  split
  · exact hr
  · rename_i hv
    exact (Memory.wf_cell ..).2 ⟨hv, h, hr⟩

/-- The cells after a write are the old ones and perhaps the one written. -/
theorem Memory.mem_set {m : Memory} {a : Nat} {v : Byte} {c : Host.Cell} (h : c ∈ m.set a v) :
    c = (a, v) ∨ c ∈ m := by
  induction m with
  | nil => exact Memory.mem_cons h
  | cons d rest ih =>
    obtain ⟨k, w⟩ := d
    simp only [Memory.set] at h
    split at h
    · exact Memory.mem_cons h
    · split at h
      · rcases Memory.mem_cons h with h | h
        · exact .inl h
        · exact .inr (by simp [h])
      · rcases List.mem_cons.1 h with h | h
        · exact .inr (by simp [h])
        · rcases ih h with h | h
          · exact .inl h
          · exact .inr (by simp [h])

/-- A write leaves every other byte alone. -/
theorem Memory.get_set_other (m : Memory) {a b : Nat} (v : Byte) (h : b ≠ a) : (m.set a v).get b = m.get b := by
  induction m with
  | nil => exact Memory.get_cons_other v [] h
  | cons d rest ih =>
    obtain ⟨k, w⟩ := d
    simp only [Memory.set]
    split
    · exact Memory.get_cons_other v _ h
    · split
      · rename_i hk
        rw [Memory.get_cons_other v _ h, Memory.get_cell, if_neg (by omega)]
      · simp [ih]

/-- A byte written reads back. -/
theorem Memory.get_set_same {m : Memory} (hm : m.wf = true) (a : Nat) (v : Byte) : (m.set a v).get a = v := by
  induction m with
  | nil => exact Memory.get_cons_same v rfl
  | cons d rest ih =>
    obtain ⟨k, w⟩ := d
    obtain ⟨_, hlt, hr⟩ := (Memory.wf_cell ..).1 hm
    simp only [Memory.set]
    split
    · rename_i hk
      refine Memory.get_cons_same v (Memory.get_of_lt ?_)
      intro c hc
      rcases List.mem_cons.1 hc with rfl | hc
      · exact hk
      · exact lt_trans hk (hlt c hc)
    · split
      · rename_i hk
        exact Memory.get_cons_same v (Memory.get_of_lt (fun c hc => hk ▸ hlt c hc))
      · rename_i hk
        simp only [Memory.get_cell]
        rw [if_neg (fun h => hk h.symm), ih hr]

/-- A write keeps the canonical form. -/
theorem Memory.wf_set {m : Memory} (hm : m.wf = true) (a : Nat) (v : Byte) : (m.set a v).wf = true := by
  induction m with
  | nil => exact Memory.wf_cons rfl (by simp)
  | cons d rest ih =>
    obtain ⟨k, w⟩ := d
    obtain ⟨hw, hlt, hr⟩ := (Memory.wf_cell ..).1 hm
    simp only [Memory.set]
    split
    · rename_i hk
      refine Memory.wf_cons hm ?_
      intro c hc
      rcases List.mem_cons.1 hc with rfl | hc
      · exact hk
      · exact lt_trans hk (hlt c hc)
    · split
      · rename_i hk
        exact Memory.wf_cons hr (fun c hc => hk ▸ hlt c hc)
      · refine (Memory.wf_cell ..).2 ⟨hw, ?_, ih hr⟩
        intro c hc
        rcases Memory.mem_set hc with rfl | hc
        · simp only
          omega
        · exact hlt c hc

theorem Memory.below_set {m : Memory} {n a : Nat} (hm : m.below n = true) (ha : a < n) (v : Byte) :
    (m.set a v).below n = true := by
  rw [Memory.below_iff] at *
  intro c hc
  rcases Memory.mem_set hc with rfl | hc
  · exact ha
  · exact hm c hc

/-- An address outside memory is unlisted. -/
theorem Memory.get_of_below {m : Memory} {n a : Nat} (hm : m.below n = true) (ha : n ≤ a) :
    m.get a = Memory.blankByte := by
  rw [Memory.below_iff] at hm
  induction m with
  | nil => rfl
  | cons c rest ih =>
    have := hm c (by simp)
    rw [show c = (c.1, c.2) from rfl, Memory.get_cell, if_neg (by omega)]
    exact ih (fun d hd => hm d (by simp [hd]))

/-- A cell of a canonical memory is read back as it stands. -/
theorem Memory.get_of_mem {m : Memory} (hm : m.wf = true) {c : Host.Cell} (h : c ∈ m) : m.get c.1 = c.2 := by
  induction m with
  | nil => simp at h
  | cons d rest ih =>
    obtain ⟨k, w⟩ := d
    obtain ⟨_, hlt, hr⟩ := (Memory.wf_cell ..).1 hm
    rcases List.mem_cons.1 h with rfl | h
    · simp
    · have := hlt c h
      rw [Memory.get_cell, if_neg (by omega), ih hr h]

/-- Canonical memories that read alike are equal as data. -/
theorem Memory.ext_get {m m' : Memory} (hm : m.wf = true) (hm' : m'.wf = true) (h : ∀ a, m.get a = m'.get a) :
    m = m' := by
  induction m generalizing m' with
  | nil =>
    cases m' with
    | nil => rfl
    | cons d rest =>
      obtain ⟨hv, _, _⟩ := (Memory.wf_cell ..).1 hm'
      have := h d.1
      simp only [Memory.get_nil] at this
      rw [Memory.get_of_mem hm' (by simp)] at this
      exact absurd this.symm hv
  | cons c rest ih =>
    obtain ⟨hv, hlt, hr⟩ := (Memory.wf_cell ..).1 hm
    cases m' with
    | nil =>
      have := h c.1
      rw [Memory.get_of_mem hm (by simp)] at this
      exact absurd this hv
    | cons d rest' =>
      obtain ⟨hv', hlt', hr'⟩ := (Memory.wf_cell ..).1 hm'
      have hk : c.1 = d.1 := by
        rcases lt_trichotomy c.1 d.1 with hcd | hcd | hcd
        · have h1 := h c.1
          rw [Memory.get_of_mem hm (by simp), Memory.get_of_lt (m := d :: rest')] at h1
          · exact absurd h1 hv
          · intro e he
            rcases List.mem_cons.1 he with rfl | he
            · exact hcd
            · exact lt_trans hcd (hlt' e he)
        · exact hcd
        · have h1 := h d.1
          rw [Memory.get_of_mem hm' (by simp), Memory.get_of_lt (m := c :: rest)] at h1
          · exact absurd h1.symm hv'
          · intro e he
            rcases List.mem_cons.1 he with rfl | he
            · exact hcd
            · exact lt_trans hcd (hlt e he)
      have hcv : c = d := by
        have h1 := h c.1
        rw [Memory.get_of_mem hm (by simp), hk, Memory.get_of_mem hm' (by simp)] at h1
        exact Prod.ext hk h1
      subst hcv
      refine congrArg (c :: ·) (ih hr hr' ?_)
      intro a
      rcases eq_or_ne a c.1 with rfl | ha
      · rw [Memory.get_of_lt hlt, Memory.get_of_lt hlt']
      · have := h a
        rwa [show c = (c.1, c.2) from rfl, Memory.get_cell, Memory.get_cell, if_neg ha.symm, if_neg ha.symm] at this

/-! ## Runs of bytes -/

theorem Memory.wf_writeLE {m : Memory} (hm : m.wf = true) (a n v : Nat) : (m.writeLE a n v).wf = true := by
  induction n generalizing m a v with
  | zero => exact hm
  | succ n ih => exact ih (Memory.wf_set hm a _) (a + 1) (v / 256)

theorem Memory.below_writeLE {m : Memory} {N : Nat} (hm : m.below N = true) {a n : Nat} (h : a + n ≤ N) (v : Nat) :
    (m.writeLE a n v).below N = true := by
  induction n generalizing m a v with
  | zero => exact hm
  | succ n ih => exact ih (Memory.below_set hm (by omega) _) (by omega) (v / 256)

/-- A little-endian write leaves every byte outside its window alone. -/
theorem Memory.get_writeLE_outside (m : Memory) {a n b : Nat} (v : Nat) (h : b < a ∨ a + n ≤ b) :
    (m.writeLE a n v).get b = m.get b := by
  induction n generalizing m a v with
  | zero => rfl
  | succ n ih =>
    rw [Memory.writeLE, ih _ _ (by omega), Memory.get_set_other _ _ (by omega)]

/-- Byte `k` of a little-endian write is byte `k` of the value. -/
theorem Memory.get_writeLE_inside {m : Memory} (hm : m.wf = true) {a n k : Nat} (v : Nat) (h : k < n) :
    (m.writeLE a n v).get (a + k) = BitVec.ofNat 8 (v / 256 ^ k) := by
  induction n generalizing m a v k with
  | zero => omega
  | succ n ih =>
    cases k with
    | zero =>
      rw [Memory.writeLE, Memory.get_writeLE_outside _ _ (by omega)]
      simp [Memory.get_set_same hm]
    | succ k =>
      rw [Memory.writeLE, show a + (k + 1) = (a + 1) + k by omega, ih (Memory.wf_set hm a _) _ (by omega),
        Nat.div_div_eq_div_mul, ← Nat.pow_succ']

/-- A little-endian read of `n` bytes is below `256 ^ n`. -/
theorem Memory.readLE_lt (m : Memory) (a n : Nat) : m.readLE a n < 256 ^ n := by
  induction n generalizing a with
  | zero => simp [Memory.readLE]
  | succ n ih =>
    have h1 := (m.get a).isLt
    have h2 := ih (a + 1)
    simp only [Memory.readLE, pow_succ]
    omega

/-- A little-endian read depends only on the bytes it reads. -/
theorem Memory.readLE_congr {m m' : Memory} {a n : Nat} (h : ∀ k, k < n → m.get (a + k) = m'.get (a + k)) :
    m.readLE a n = m'.readLE a n := by
  induction n generalizing a with
  | zero => rfl
  | succ n ih =>
    have h0 := h 0 (by omega)
    simp only [Nat.add_zero] at h0
    rw [Memory.readLE, Memory.readLE, h0, ih (fun k hk => by simpa [Nat.add_assoc, Nat.add_comm 1] using h (k + 1) (by omega))]

theorem Memory.wf_writeBytes {m : Memory} (hm : m.wf = true) (a : Nat) (bs : List Byte) :
    (m.writeBytes a bs).wf = true := by
  induction bs generalizing m a with
  | nil => exact hm
  | cons b bs ih => exact ih (Memory.wf_set hm a b) (a + 1)

theorem Memory.below_writeBytes {m : Memory} {N : Nat} (hm : m.below N = true) {a : Nat} {bs : List Byte}
    (h : a + bs.length ≤ N) : (m.writeBytes a bs).below N = true := by
  induction bs generalizing m a with
  | nil => exact hm
  | cons b bs ih =>
    simp only [List.length_cons] at h
    exact ih (Memory.below_set hm (by omega) b) (by omega)

theorem Memory.get_writeBytes_outside (m : Memory) {a b : Nat} (bs : List Byte) (h : b < a ∨ a + bs.length ≤ b) :
    (m.writeBytes a bs).get b = m.get b := by
  induction bs generalizing m a with
  | nil => rfl
  | cons c bs ih =>
    simp only [List.length_cons] at h
    rw [Memory.writeBytes, ih _ (by omega), Memory.get_set_other _ _ (by omega)]

theorem Memory.get_writeBytes_inside {m : Memory} (hm : m.wf = true) {a k : Nat} {bs : List Byte}
    (h : k < bs.length) : (m.writeBytes a bs).get (a + k) = bs[k] := by
  induction bs generalizing m a k with
  | nil => simp at h
  | cons c bs ih =>
    simp only [List.length_cons] at h
    cases k with
    | zero =>
      rw [Memory.writeBytes, Memory.get_writeBytes_outside _ _ (by omega)]
      simp [Memory.get_set_same hm]
    | succ k =>
      rw [Memory.writeBytes, show a + (k + 1) = (a + 1) + k by omega, ih (Memory.wf_set hm a c) (by omega)]
      rfl

end Sys2Proof.Machine
end

