-- ==== Sys2Proof/Laws/State.lean ====
section
/-! SUPPORT. One lemma per field per update of the state: what each named update changes and what it leaves. -/

namespace Sys2Proof.Machine

section setMem
variable (s : State) (m : Memory)
@[simp] theorem State.setMem_cfg : (s.setMem m).cfg = s.cfg := rfl
@[simp] theorem State.setMem_pc : (s.setMem m).pc = s.pc := rfl
@[simp] theorem State.setMem_regs : (s.setMem m).regs = s.regs := rfl
@[simp] theorem State.setMem_mem : (s.setMem m).mem = m := rfl
@[simp] theorem State.setMem_status : (s.setMem m).status = s.status := rfl
@[simp] theorem State.setMem_fault : (s.setMem m).fault = s.fault := rfl
@[simp] theorem State.setMem_readReg (i : Nat) : (s.setMem m).readReg i = s.readReg i := rfl
@[simp] theorem State.setMem_byteAt (a : Nat) : (s.setMem m).byteAt a = m.get a := rfl
end setMem

section setPc
variable (s : State) (a : Word)
@[simp] theorem State.setPc_cfg : (s.setPc a).cfg = s.cfg := rfl
@[simp] theorem State.setPc_pc : (s.setPc a).pc = a := rfl
@[simp] theorem State.setPc_regs : (s.setPc a).regs = s.regs := rfl
@[simp] theorem State.setPc_mem : (s.setPc a).mem = s.mem := rfl
@[simp] theorem State.setPc_status : (s.setPc a).status = s.status := rfl
@[simp] theorem State.setPc_fault : (s.setPc a).fault = s.fault := rfl
@[simp] theorem State.setPc_readReg (i : Nat) : (s.setPc a).readReg i = s.readReg i := rfl
@[simp] theorem State.setPc_byteAt (b : Nat) : (s.setPc a).byteAt b = s.byteAt b := rfl
end setPc

section setStatus
variable (s : State) (st : Status)
@[simp] theorem State.setStatus_cfg : (s.setStatus st).cfg = s.cfg := rfl
@[simp] theorem State.setStatus_pc : (s.setStatus st).pc = s.pc := rfl
@[simp] theorem State.setStatus_regs : (s.setStatus st).regs = s.regs := rfl
@[simp] theorem State.setStatus_mem : (s.setStatus st).mem = s.mem := rfl
@[simp] theorem State.setStatus_status : (s.setStatus st).status = st := rfl
@[simp] theorem State.setStatus_fault : (s.setStatus st).fault = s.fault := rfl
@[simp] theorem State.setStatus_readReg (i : Nat) : (s.setStatus st).readReg i = s.readReg i := rfl
@[simp] theorem State.setStatus_byteAt (b : Nat) : (s.setStatus st).byteAt b = s.byteAt b := rfl
end setStatus

section writeReg
variable (s : State) (i : Nat) (v : Word)
@[simp] theorem State.writeReg_cfg : (s.writeReg i v).cfg = s.cfg := rfl
@[simp] theorem State.writeReg_pc : (s.writeReg i v).pc = s.pc := rfl
@[simp] theorem State.writeReg_mem : (s.writeReg i v).mem = s.mem := rfl
@[simp] theorem State.writeReg_status : (s.writeReg i v).status = s.status := rfl
@[simp] theorem State.writeReg_fault : (s.writeReg i v).fault = s.fault := rfl
@[simp] theorem State.writeReg_byteAt (a : Nat) : (s.writeReg i v).byteAt a = s.byteAt a := rfl
@[simp] theorem State.writeReg_regs_length : (s.writeReg i v).regs.length = s.regs.length := by
  simp [State.writeReg]

/-- A register written in range reads back, and every other register reads as before. -/
theorem State.readReg_writeReg (h : i < s.regs.length) (j : Nat) :
    (s.writeReg i v).readReg j = if j = i then v else s.readReg j := by
  simp only [State.readReg, State.writeReg, List.getD_eq_getElem?_getD, List.getElem?_set]
  by_cases hj : i = j
  · subst hj
    simp [h]
  · simp [hj, Ne.symm hj]

/-- A register other than the one written reads as before, in range or not. -/
theorem State.readReg_writeReg_other {j : Nat} (h : j ≠ i) : (s.writeReg i v).readReg j = s.readReg j := by
  simp [State.readReg, State.writeReg, h.symm]

end writeReg

section mirror
variable (s : State) (a : Word)
@[simp] theorem State.mirror_cfg : (s.mirror a).cfg = s.cfg := rfl
@[simp] theorem State.mirror_pc : (s.mirror a).pc = s.pc := rfl
@[simp] theorem State.mirror_mem : (s.mirror a).mem = s.mem := rfl
@[simp] theorem State.mirror_status : (s.mirror a).status = s.status := rfl
@[simp] theorem State.mirror_fault : (s.mirror a).fault = s.fault := rfl
@[simp] theorem State.mirror_byteAt (b : Nat) : (s.mirror a).byteAt b = s.byteAt b := rfl
@[simp] theorem State.mirror_regs_length : (s.mirror a).regs.length = s.regs.length := by
  simp [State.mirror]
end mirror

section retire
variable (s : State) (a : Word)
@[simp] theorem State.retire_cfg : (s.retire a).cfg = s.cfg := rfl
@[simp] theorem State.retire_pc : (s.retire a).pc = a := rfl
@[simp] theorem State.retire_mem : (s.retire a).mem = s.mem := rfl
@[simp] theorem State.retire_status : (s.retire a).status = s.status := rfl
@[simp] theorem State.retire_fault : (s.retire a).fault = s.fault := rfl
@[simp] theorem State.retire_byteAt (b : Nat) : (s.retire a).byteAt b = s.byteAt b := rfl
@[simp] theorem State.retire_regs_length : (s.retire a).regs.length = s.regs.length := by
  simp [State.retire]
end retire

section takeFault
variable (s : State) (c : Cause)
@[simp] theorem State.takeFault_cfg : (s.takeFault c).cfg = s.cfg := rfl
@[simp] theorem State.takeFault_pc : (s.takeFault c).pc = s.pc := rfl
@[simp] theorem State.takeFault_regs : (s.takeFault c).regs = s.regs := rfl
@[simp] theorem State.takeFault_mem : (s.takeFault c).mem = s.mem := rfl
@[simp] theorem State.takeFault_status : (s.takeFault c).status = .faulted := rfl
@[simp] theorem State.takeFault_fault : (s.takeFault c).fault = some (faultRecord s.pc c) := rfl
@[simp] theorem State.takeFault_readReg (i : Nat) : (s.takeFault c).readReg i = s.readReg i := rfl
@[simp] theorem State.takeFault_byteAt (b : Nat) : (s.takeFault c).byteAt b = s.byteAt b := rfl
end takeFault

section powerOn
variable (c : Config)
@[simp] theorem State.powerOn_cfg : (State.powerOn c).cfg = c := rfl
@[simp] theorem State.powerOn_pc : (State.powerOn c).pc = 0 := rfl
@[simp] theorem State.powerOn_mem : (State.powerOn c).mem = [] := rfl
@[simp] theorem State.powerOn_status : (State.powerOn c).status = .running := rfl
@[simp] theorem State.powerOn_fault : (State.powerOn c).fault = none := rfl
@[simp] theorem State.powerOn_regs_length : (State.powerOn c).regs.length = c.regInit.length := by
  simp [State.powerOn]
end powerOn

end Sys2Proof.Machine
end

