-- ==== Sys2Proof/Laws/Ops.lean ====
section
/-! SUPPORT. One lemma for each shared operation that says everything it can do: checked memory access, register index
check, the common part of the cycle, fetch. -/

namespace Sys2Proof.Machine

/-! ## Bounds -/

theorem State.inBounds_iff (s : State) (a : Int) (n : Nat) :
    s.inBounds a n = true ↔ 0 ≤ a ∧ a + n ≤ s.cfg.memSize := by
  simp [State.inBounds]

/-! ## Checked memory access -/

theorem memRead_ok {s : State} {a : Int} {n : Nat} (h : 0 ≤ a ∧ a + n ≤ s.cfg.memSize) :
    memRead s a n = .ok (s.mem.readLE a.toNat n) := by
  rw [memRead, if_pos ((s.inBounds_iff a n).2 h)]

theorem memRead_error {s : State} {a : Int} {n : Nat} (h : ¬ (0 ≤ a ∧ a + n ≤ s.cfg.memSize)) :
    memRead s a n = .error (.memoryFault a) := by
  rw [memRead, if_neg (fun hb => h ((s.inBounds_iff a n).1 hb))]

theorem memWrite_ok {s : State} {a : Int} {n : Nat} (v : Word) (h : 0 ≤ a ∧ a + n ≤ s.cfg.memSize) :
    memWrite s a n v = .ok (s.setMem (s.mem.writeLE a.toNat n v.toNat)) := by
  rw [memWrite, if_pos ((s.inBounds_iff a n).2 h)]

theorem memWrite_error {s : State} {a : Int} {n : Nat} (v : Word) (h : ¬ (0 ≤ a ∧ a + n ≤ s.cfg.memSize)) :
    memWrite s a n v = .error (.memoryFault a) := by
  rw [memWrite, if_neg (fun hb => h ((s.inBounds_iff a n).1 hb))]

/-- Four bytes as one number are those bytes side by side. -/
theorem readLE_four (m : Memory) (a : Nat) : m.readLE a 4 =
    (m.get a).toNat + 256 * ((m.get (a + 1)).toNat + 256 * ((m.get (a + 2)).toNat + 256 * (m.get (a + 3)).toNat)) := by
  simp [Memory.readLE]

theorem toNat_wordAt (s : State) (a : Nat) : (s.wordAt a).toNat = s.mem.readLE a 4 := by
  have h0 := (s.mem.get a).isLt
  have h1 := (s.mem.get (a + 1)).isLt
  have h2 := (s.mem.get (a + 2)).isLt
  have h3 := (s.mem.get (a + 3)).isLt
  have hw : (s.wordAt a).toNat =
      (((s.byteAt (a + 3)).toNat <<< 8 ||| (s.byteAt (a + 2)).toNat) <<< 8 ||| (s.byteAt (a + 1)).toNat) <<< 8 |||
        (s.byteAt a).toNat := by
    refine (BitVec.toNat_append _ _).trans ?_
    rw [BitVec.toNat_append, BitVec.toNat_append]
  rw [hw, readLE_four]
  simp only [State.byteAt]
  rw [← Nat.shiftLeft_add_eq_or_of_lt (by omega), ← Nat.shiftLeft_add_eq_or_of_lt (by omega),
    ← Nat.shiftLeft_add_eq_or_of_lt (by omega)]
  simp only [Nat.shiftLeft_eq]
  omega

/-- R53: a checked read of a word in memory gives the word that stands there. -/
theorem readWord_ok {s : State} {a : Int} (h : s.WordInMemory a) : readWord s a = .ok (s.wordAt a.toNat) := by
  rw [readWord, memRead_ok h]
  refine congrArg _ (BitVec.eq_of_toNat_eq ?_)
  have := Memory.readLE_lt s.mem a.toNat 4
  rw [toNat_wordAt, BitVec.toNat_ofNat, Nat.mod_eq_of_lt (by simpa using this)]

theorem readWord_error {s : State} {a : Int} (h : ¬ s.WordInMemory a) : readWord s a = .error (.memoryFault a) := by
  rw [readWord, memRead_error h]

theorem readU8_ok {s : State} {a : Int} (h : 0 ≤ a ∧ a + 1 ≤ s.cfg.memSize) : readU8 s a = .ok (s.byteAt a.toNat) := by
  rw [readU8, memRead_ok (by simpa using h)]
  refine congrArg _ (BitVec.eq_of_toNat_eq ?_)
  have := (s.mem.get a.toNat).isLt
  simp [Memory.readLE, State.byteAt]

theorem readU8_error {s : State} {a : Int} (h : ¬ (0 ≤ a ∧ a + 1 ≤ s.cfg.memSize)) :
    readU8 s a = .error (.memoryFault a) := by
  rw [readU8, memRead_error (by simpa using h)]

theorem toNat_byteOfWord (v : Word) (k : Nat) : (byteOfWord v k).toNat = v.toNat / 256 ^ k % 256 := by
  rw [byteOfWord, BitVec.extractLsb'_toNat, Nat.shiftRight_eq_div_pow, Nat.pow_mul]

/-- R54: a checked write of a word in memory changes the memory and nothing else. -/
theorem writeWord_ok {s : State} {a : Int} (v : Word) (h : s.WordInMemory a) :
    writeWord s a v = .ok (s.setMem (s.mem.writeLE a.toNat 4 v.toNat)) := memWrite_ok v h

theorem writeWord_error {s : State} {a : Int} (v : Word) (h : ¬ s.WordInMemory a) :
    writeWord s a v = .error (.memoryFault a) := memWrite_error v h

/-- R51, R54: what a word write leaves in memory. -/
theorem storesWord_writeLE {s : State} (hm : s.mem.wf = true) (a : Nat) (v : Word) :
    StoresWord s (s.setMem (s.mem.writeLE a 4 v.toNat)) a v := by
  constructor
  · intro k hk
    apply BitVec.eq_of_toNat_eq
    rw [State.setMem_byteAt, Memory.get_writeLE_inside hm _ hk, toNat_byteOfWord, BitVec.toNat_ofNat]
  · intro b hb
    exact Memory.get_writeLE_outside _ _ hb

/-- R59: a word whose bytes stand in memory is the word read there. -/
theorem wordAt_of_bytes {s : State} {a : Nat} {v : Word} (h : ∀ k, k < 4 → s.byteAt (a + k) = byteOfWord v k) :
    s.wordAt a = v := by
  apply BitVec.eq_of_toNat_eq
  have h0 := congrArg BitVec.toNat (h 0 (by omega))
  have h1 := congrArg BitVec.toNat (h 1 (by omega))
  have h2 := congrArg BitVec.toNat (h 2 (by omega))
  have h3 := congrArg BitVec.toNat (h 3 (by omega))
  have := v.isLt
  rw [toNat_byteOfWord] at h0 h1 h2 h3
  simp only [State.byteAt, Nat.add_zero] at h0 h1 h2 h3
  rw [toNat_wordAt, readLE_four, h0, h1, h2, h3]
  omega

/-! ## Operands -/

theorem regIndex_ok {s : State} {f : Word} (h : f.toNat < s.cfg.regCount) : regIndex s f = .ok f.toNat := if_pos h

theorem regIndex_error {s : State} {f : Word} (h : s.cfg.regCount ≤ f.toNat) :
    regIndex s f = .error (.registerFault f.toNat) := if_neg (by omega)

/-! ## The common part of the cycle -/

/-- What `runInstr` can do: the end of the cycle on what `execute` made, or the fault entry on the state it began in. -/
theorem runInstr_cases {s t : State} {op : Opcode} {pcNext : Word} {execute : State → Except Cause State}
    (h : runInstr s op pcNext execute = .next t) :
    (∃ c, execute (s.mirror (s.pcSeq op.length)) = .error c ∧ t = s.takeFault c) ∨
    (∃ u, execute (s.mirror (s.pcSeq op.length)) = .ok u ∧ t = u.retire pcNext) := by
  unfold runInstr at h
  split at h
  · rename_i c hc
    exact .inl ⟨c, hc, by simpa using h.symm⟩
  · rename_i u hu
    exact .inr ⟨u, hu, by simpa using h.symm⟩

theorem runInstr_ok {s u : State} {op : Opcode} {pcNext : Word} {execute : State → Except Cause State}
    (h : execute (s.mirror (s.pcSeq op.length)) = .ok u) : runInstr s op pcNext execute = .next (u.retire pcNext) := by
  rw [runInstr, h]

theorem runInstr_error {s : State} {c : Cause} {op : Opcode} {pcNext : Word} {execute : State → Except Cause State}
    (h : execute (s.mirror (s.pcSeq op.length)) = .error c) : runInstr s op pcNext execute = .next (s.takeFault c) := by
  rw [runInstr, h]

/-- `runInstr` always answers a next state. -/
theorem runInstr_next (s : State) (op : Opcode) (pcNext : Word) (execute : State → Except Cause State) :
    ∃ t, runInstr s op pcNext execute = .next t := by
  unfold runInstr
  split <;> exact ⟨_, rfl⟩

theorem State.takeFault_eq (s : State) (c : Cause) : s.takeFault c = s.faultedWith c.kind c.kind.code c.info := rfl

/-- R116 (a): a register as `execute` finds it after the mirror write. -/
theorem State.readReg_mirror {s : State} (hw : s.WF) (op : Opcode) (j : Nat) :
    (s.mirror (s.pcSeq op.length)).readReg j = s.seen op.length j := by
  obtain ⟨⟨-, -, -, -, -, hi, -, -⟩, hr, -⟩ := hw
  have : s.cfg.idxIP < s.regs.length := by
    rw [hr]
    exact hi _ (by simp [Config.indices])
  rw [State.mirror, State.readReg_writeReg _ _ _ this, State.seen, State.pcSeq]

/-- R118: a register at the end of a completed cycle. -/
theorem State.readReg_retire {s : State} (hi : s.cfg.idxCYC < s.regs.length) (a : Word) (j : Nat) :
    (s.retire a).readReg j = s.counted j (s.readReg j) := by
  rw [State.retire, State.setPc_readReg, State.readReg_writeReg _ _ _ hi, State.counted]
  split
  · rename_i h
    rw [h, State.regCYC]
  · rfl

end Sys2Proof.Machine
end

