-- ==== Sys2Proof/Laws/Invariant.lean ====
section
/-! SUPPORT. What well-formedness says of a configuration and a state, and that each named operation keeps it. -/

namespace Sys2Proof

/-- The six reserved indices are registers (R5). -/
theorem Config.WF.index_lt {c : Config} (h : c.WF) :
    c.idxA < c.regCount ∧ c.idxB < c.regCount ∧ c.idxC < c.regCount ∧ c.idxSP < c.regCount ∧
      c.idxIP < c.regCount ∧ c.idxCYC < c.regCount := by
  obtain ⟨-, -, -, -, -, hi, -, -⟩ := h
  simpa [Config.indices] using hi

/-- The six reserved indices are distinct (R5). -/
theorem Config.WF.index_ne {c : Config} (h : c.WF) :
    (c.idxA ≠ c.idxB ∧ c.idxA ≠ c.idxC ∧ c.idxA ≠ c.idxSP ∧ c.idxA ≠ c.idxIP ∧ c.idxA ≠ c.idxCYC) ∧
      (c.idxB ≠ c.idxC ∧ c.idxB ≠ c.idxSP ∧ c.idxB ≠ c.idxIP ∧ c.idxB ≠ c.idxCYC) ∧
      (c.idxC ≠ c.idxSP ∧ c.idxC ≠ c.idxIP ∧ c.idxC ≠ c.idxCYC) ∧
      (c.idxSP ≠ c.idxIP ∧ c.idxSP ≠ c.idxCYC) ∧ c.idxIP ≠ c.idxCYC := by
  obtain ⟨-, -, -, -, hn, -, -, -⟩ := h
  simp only [Config.indices, List.nodup_cons, List.mem_cons, List.not_mem_nil, or_false, not_or,
    not_false_eq_true, and_true, List.nodup_nil] at hn
  exact hn

end Sys2Proof

namespace Sys2Proof.Machine

theorem State.WF.config {s : State} (h : s.WF) : s.cfg.WF := h.1
theorem State.WF.regs_length {s : State} (h : s.WF) : s.regs.length = s.cfg.regCount := h.2.1
theorem State.WF.mem_wf {s : State} (h : s.WF) : s.mem.wf = true := h.2.2.1
theorem State.WF.mem_below {s : State} (h : s.WF) : s.mem.below s.cfg.memSize = true := h.2.2.2.1
theorem State.WF.fault_wf {s : State} (h : s.WF) : s.faultWf = true := h.2.2.2.2

/-- A running machine that is well formed has no fault record. -/
theorem State.WF.no_fault {s : State} (h : s.WF) (hr : s.status ≠ .faulted) : s.fault = none := by
  have := h.fault_wf
  unfold State.faultWf at this
  split at this
  · assumption
  · simp [hr] at this

/-- The fault record of a running machine may be checked on the record and the status alone. -/
theorem State.faultWf_of_none {s : State} (hf : s.fault = none) (hr : s.status ≠ .faulted) : s.faultWf = true := by
  simp [State.faultWf, hf, hr]

/-! ## Each operation keeps a state well formed -/

theorem State.WF.writeReg {s : State} (h : s.WF) (i : Nat) (v : Word) : (s.writeReg i v).WF :=
  ⟨h.config, by simpa using h.regs_length, h.mem_wf, h.mem_below, h.fault_wf⟩

theorem State.WF.mirror {s : State} (h : s.WF) (a : Word) : (s.mirror a).WF := h.writeReg _ _

theorem State.WF.setPc {s : State} (h : s.WF) (a : Word) : (s.setPc a).WF :=
  ⟨h.config, h.regs_length, h.mem_wf, h.mem_below, h.fault_wf⟩

theorem State.WF.retire {s : State} (h : s.WF) (a : Word) : (s.retire a).WF := (h.writeReg _ _).setPc a

theorem State.WF.setMem {s : State} (h : s.WF) {m : Memory} (hm : m.wf = true) (hb : m.below s.cfg.memSize = true) :
    (s.setMem m).WF :=
  ⟨h.config, h.regs_length, hm, hb, h.fault_wf⟩

/-- A status other than FAULTED may be set where there is no fault record. -/
theorem State.WF.setStatus {s : State} (h : s.WF) (hr : s.status ≠ .faulted) {st : Status} (hst : st ≠ .faulted) :
    (s.setStatus st).WF :=
  ⟨h.config, h.regs_length, h.mem_wf, h.mem_below, State.faultWf_of_none (h.no_fault hr) hst⟩

/-- The causes a machine with these parameters can raise: those whose record is a true one (R180 to R184). -/
def Cause.Raisable (c : Config) : Cause → Prop
  | .decodeFault b => b ∉ c.opc.toList
  | .registerFault i => ¬ (0 ≤ i ∧ i < c.regCount)
  | .memoryFault a => ¬ (0 ≤ a ∧ a + 4 ≤ c.memSize)
  | .arithmeticFault sub =>
    sub = 0 ∨ (sub = 1 ∧ c.divOverflow = .fault) ∨ (sub = 2 ∧ c.arithOverflow = .fault)

theorem faultRecord_wf {c : Config} {cause : Cause} (h : cause.Raisable c) (pc : Word) :
    (faultRecord pc cause).wf c = true := by
  cases cause with
  | decodeFault b =>
    have hl := b.isLt
    simp only [Cause.Raisable] at h
    simp [FaultRecord.wf, faultRecord, Cause.kind, Cause.info, h]
    omega
  | registerFault i =>
    simp only [Cause.Raisable] at h
    change (true && !(decide (0 ≤ i) && decide (i < (c.regCount : Int)))) = true
    simp
    omega
  | memoryFault a =>
    simp only [Cause.Raisable] at h
    change (true && !(decide (0 ≤ a) && decide (a + 4 ≤ (c.memSize : Int)))) = true
    simp
    omega
  | arithmeticFault sub =>
    rcases h with rfl | ⟨rfl, h⟩ | ⟨rfl, h⟩ <;>
      simp [FaultRecord.wf, faultRecord, Cause.kind, Cause.info, *]

theorem State.WF.takeFault {s : State} (h : s.WF) {c : Cause} (hc : c.Raisable s.cfg) : (s.takeFault c).WF :=
  ⟨h.config, h.regs_length, h.mem_wf, h.mem_below, by
    simp [State.faultWf, faultRecord_wf hc s.pc]⟩

/-! ## The checked operations: what they raise is raisable, and what they make is well formed -/

theorem memoryFault_raisable {s : State} {a : Int} {n : Nat} (hn : n ≤ 4) (h : ¬ (0 ≤ a ∧ a + n ≤ s.cfg.memSize)) :
    (Cause.memoryFault a).Raisable s.cfg := by
  simp only [Cause.Raisable]
  omega

theorem readWord_raises {s : State} {a : Int} {c : Cause} (h : readWord s a = .error c) : c.Raisable s.cfg := by
  by_cases hb : s.WordInMemory a
  · rw [readWord_ok hb] at h
    cases h
  · rw [readWord_error hb] at h
    cases h
    exact hb

theorem regIndex_raises {s : State} {f : Word} {c : Cause} (h : regIndex s f = .error c) : c.Raisable s.cfg := by
  unfold regIndex at h
  split at h
  · cases h
  · cases h
    simp only [Cause.Raisable]
    omega

theorem writeWord_raises {s : State} {a : Int} {v : Word} {c : Cause} (h : writeWord s a v = .error c) :
    c.Raisable s.cfg := by
  by_cases hb : s.WordInMemory a
  · rw [writeWord_ok v hb] at h
    cases h
  · rw [writeWord_error v hb] at h
    cases h
    exact hb

theorem State.WF.writeWord {s t : State} (hs : s.WF) {a : Int} {v : Word} (h : writeWord s a v = .ok t) : t.WF := by
  by_cases hb : s.WordInMemory a
  · rw [writeWord_ok v hb] at h
    cases h
    refine hs.setMem (Memory.wf_writeLE hs.mem_wf ..) (Memory.below_writeLE hs.mem_below ?_ _)
    obtain ⟨h0, h1⟩ := hb
    omega
  · rw [writeWord_error v hb] at h
    cases h

theorem arithResult_raises {c : Config} {exact : Int} {cause : Cause}
    (h : arithResult c.arithOverflow exact = .error cause) : cause.Raisable c := by
  unfold arithResult at h
  split at h
  · cases h
  · rename_i hp
    split at h
    · cases h
    · cases h
      exact .inr (.inr ⟨rfl, hp⟩)

theorem divResult_raises {c : Config} {a b : Int} {cause : Cause} (h : divResult c.divOverflow a b = .error cause) :
    cause.Raisable c := by
  unfold divResult at h
  split at h
  · cases h
    exact .inl rfl
  · split at h
    · split at h
      · rename_i hp
        cases h
        exact .inr (.inl ⟨rfl, hp⟩)
      · cases h
    · cases h

/-- Whatever `execute` does, if it raises only what can be raised and makes only well-formed states, the whole cycle
ends in a well-formed state. -/
theorem runInstr_WF {s t : State} {op : Opcode} {pcNext : Word} {execute : State → Except Cause State} (hs : s.WF)
    (hraise : ∀ u c, u.WF → u.cfg = s.cfg → execute u = .error c → c.Raisable s.cfg)
    (hmake : ∀ u v, u.WF → execute u = .ok v → v.WF) (h : runInstr s op pcNext execute = .next t) : t.WF := by
  rcases runInstr_cases h with ⟨c, hc, rfl⟩ | ⟨u, hu, rfl⟩
  · exact hs.takeFault (hraise _ c (hs.mirror _) rfl hc)
  · exact (hmake _ u (hs.mirror _) hu).retire _

end Sys2Proof.Machine
end

