-- ==== Sys2Proof/Laws/Cycle.lean ====
section
/-! SUPPORT. From what `execute` leaves to what the whole cycle leaves: the frame of a completed instruction. -/

namespace Sys2Proof.Machine

/-- A register of a well-formed state that `execute` did not touch, at the end of the cycle. -/
theorem readReg_retire_of_mirror {s u : State} (hw : s.WF) {op : Opcode} (hcfg : u.cfg = s.cfg)
    (hlen : u.regs.length = s.regs.length) (pcNext : Word) {j : Nat}
    (h : u.readReg j = (s.mirror (s.pcSeq op.length)).readReg j) :
    (u.retire pcNext).readReg j = s.counted j (s.seen op.length j) := by
  have hi : u.cfg.idxCYC < u.regs.length := by
    rw [hcfg, hlen, hw.regs_length]
    exact hw.config.index_lt.2.2.2.2.2
  rw [State.readReg_retire hi, h, State.readReg_mirror hw, State.counted, State.counted, hcfg]

/-- A register in which `execute` left `v`, at the end of the cycle. -/
theorem readReg_retire_of_written {s u : State} (hw : s.WF) (hcfg : u.cfg = s.cfg)
    (hlen : u.regs.length = s.regs.length) (pcNext : Word) {j : Nat} {v : Word} (h : u.readReg j = v) :
    (u.retire pcNext).readReg j = s.counted j v := by
  have hi : u.cfg.idxCYC < u.regs.length := by
    rw [hcfg, hlen, hw.regs_length]
    exact hw.config.index_lt.2.2.2.2.2
  rw [State.readReg_retire hi, h, State.counted, State.counted, hcfg]

/-- The frame of a completed instruction, from the frame of its `execute`. -/
theorem completesTo_retire {s u : State} (hw : s.WF) {op : Opcode} (pcNext : Word) {dests : List Nat}
    (hcfg : u.cfg = s.cfg) (hstatus : u.status = s.status) (hfault : u.fault = s.fault)
    (hlen : u.regs.length = s.regs.length)
    (hreg : ∀ j, j ∉ dests → u.readReg j = (s.mirror (s.pcSeq op.length)).readReg j) :
    CompletesTo s (u.retire pcNext) op.length pcNext dests :=
  ⟨rfl, hstatus, hfault, hcfg, by simpa using hlen,
    fun j _ hj => readReg_retire_of_mirror hw hcfg hlen pcNext (hreg j hj)⟩

/-- A count does not reach a register other than `CYC`. -/
theorem State.counted_of_ne {s : State} {j : Nat} (h : j ≠ s.cfg.idxCYC) (v : Word) : s.counted j v = v := if_neg h

/-- The mirror write does not reach a register other than `IP`. -/
theorem State.seen_of_ne {s : State} {j : Nat} (h : j ≠ s.cfg.idxIP) (len : Nat) : s.seen len j = s.readReg j := if_neg h

/-- A register other than `IP` after the mirror write. -/
theorem State.readReg_mirror_of_ne {s : State} {j : Nat} (h : j ≠ s.cfg.idxIP) (a : Word) :
    (s.mirror a).readReg j = s.readReg j := State.readReg_writeReg_other _ _ _ h

/-- `A` and `B` are read as the last cycle left them. -/
theorem State.operands_mirror {s : State} (hw : s.WF) (a : Word) :
    (s.mirror a).regA = s.regA ∧ (s.mirror a).regB = s.regB ∧ (s.mirror a).regSP = s.regSP := by
  have hn := hw.config.index_ne
  exact ⟨State.readReg_mirror_of_ne hn.1.2.2.2.1 a, State.readReg_mirror_of_ne hn.2.1.2.2.1 a,
    State.readReg_mirror_of_ne hn.2.2.2.1.1 a⟩

end Sys2Proof.Machine
end

