-- ==== Sys2Proof/Laws/Arithmetic.lean ====
section
/-! SUPPORT. The arithmetic behind 43_arithmetic.md: when a result fits, what a division gives, and what `A` and `C` hold at
the end of the cycle. -/

namespace Sys2Proof.Machine

theorem inI32_iff (v : Int) : inI32 v = true ↔ -2147483648 ≤ v ∧ v ≤ 2147483647 := by
  simp [inI32]

/-- Every register value is in `i32`. -/
theorem inI32_toInt (v : Word) : -2147483648 ≤ v.toInt ∧ v.toInt ≤ 2147483647 := by
  have h1 := BitVec.toInt_lt (x := v)
  have h2 := BitVec.le_toInt (x := v)
  norm_num at h1 h2
  omega

/-- A value that fits is not changed by wrapping. -/
theorem toInt_wrap32 {v : Int} (h : -2147483648 ≤ v ∧ v ≤ 2147483647) : (wrap32 v).toInt = v := by
  rw [wrap32, BitVec.toInt_ofInt, Int.bmod_eq_of_le] <;> omega

/-- An address field that is not negative is the same under both readings. -/
theorem toNat_toInt {a : Word} (h : 0 ≤ a.toInt) : a.toInt.toNat = a.toNat := by
  have := a.isLt
  rw [BitVec.toInt_eq_toNat_cond] at *
  split at h
  · simp_all
  · omega

theorem arithResult_ok {p : OverflowPolicy} {exact : Int}
    (h : p = .wrap ∨ (-2147483648 ≤ exact ∧ exact ≤ 2147483647)) : arithResult p exact = .ok (wrap32 exact) := by
  cases p with
  | wrap => rfl
  | fault =>
    rcases h with h | h
    · cases h
    · simp only [arithResult, if_pos ((inI32_iff exact).2 h)]

theorem arithResult_error {exact : Int} (h : ¬ (-2147483648 ≤ exact ∧ exact ≤ 2147483647)) :
    arithResult .fault exact = .error (.arithmeticFault 2) := by
  simp only [arithResult, if_neg (fun hi => h ((inI32_iff exact).1 hi))]

theorem divResult_zero (p : OverflowPolicy) {a b : Int} (h : b = 0) :
    divResult p a b = .error (.arithmeticFault 0) := by
  simp [divResult, h]

theorem divResult_corner (p : OverflowPolicy) {a b : Int} (ha : a = -2147483648) (hb : b = -1) :
    divResult p a b = match p with
      | .fault => .error (.arithmeticFault 1)
      | .wrap => .ok (wrap32 intMin, 0) := by
  subst ha hb
  cases p <;> rfl

theorem divResult_ok (p : OverflowPolicy) {a b : Int} (hb : b ≠ 0) (h : ¬ (a = -2147483648 ∧ b = -1)) :
    divResult p a b = .ok (wrap32 (a.tdiv b), wrap32 (a - a.tdiv b * b)) := by
  unfold divResult
  rw [if_neg hb, if_neg h]

/-- A quotient rounded toward zero fits, but for `INT_MIN / -1`. -/
theorem tdiv_inI32 {a b : Int} (ha : -2147483648 ≤ a ∧ a ≤ 2147483647) (h : ¬ (a = -2147483648 ∧ b = -1)) :
    -2147483648 ≤ a.tdiv b ∧ a.tdiv b ≤ 2147483647 := by
  have h1 := Int.natAbs_tdiv a b
  by_cases hb : b = -1
  · subst hb
    rw [Int.tdiv_neg, Int.tdiv_one]
    omega
  · by_cases hb1 : b = 1
    · subst hb1
      simpa using ha
    · by_cases hb0 : b = 0
      · subst hb0
        simp
      · have h2 : a.natAbs / b.natAbs ≤ a.natAbs / 2 := Nat.div_le_div_left (by omega) (by omega)
        have h3 : (a.tdiv b).natAbs ≤ a.natAbs / 2 := h1.le.trans h2
        omega

/-- The remainder of R154 is the truncated one. -/
theorem sub_tdiv_mul (a b : Int) : a - a.tdiv b * b = a.tmod b := by
  have := Int.tmod_add_mul_tdiv a b
  rw [Int.mul_comm] at this
  omega

end Sys2Proof.Machine
end

