-- ==== Sys2Proof/Laws/PerInstr.lean ====
section
/-! SUPPORT. Statements made of every instruction as syntax, one lemma per constructor. -/

namespace Sys2Proof.Laws.EncodedLength

/-- R82, R85, R92: an encoding has the length its format gives, 1, 5 or 9 bytes, and begins with the opcode byte. -/
def Statement (i : Instr) : Prop :=
  ∀ m : OpcodeMap, (encode m i).length = 1 + 4 * i.fields.length ∧ (encode m i).length = i.length ∧
    i.length ∈ [1, 5, 9] ∧ (encode m i)[0]? = some (m.byteOf i.opcode)

/-- The lengths the three formats give (R82). -/
theorem op_length (op : Opcode) : op.length ∈ [1, 5, 9] := by
  cases op <;> decide

theorem halt : Statement .halt := fun _ => ⟨rfl, rfl, op_length _, rfl⟩
theorem jump (target : Word) : Statement (.jump target) := fun _ => ⟨rfl, rfl, op_length _, rfl⟩
theorem store (r addr : Word) : Statement (.store r addr) := fun _ => ⟨rfl, rfl, op_length _, rfl⟩
theorem load (r imm : Word) : Statement (.load r imm) := fun _ => ⟨rfl, rfl, op_length _, rfl⟩
theorem loadIndirect (r addr : Word) : Statement (.loadIndirect r addr) := fun _ => ⟨rfl, rfl, op_length _, rfl⟩
theorem moveRegister (rd rs : Word) : Statement (.moveRegister rd rs) := fun _ => ⟨rfl, rfl, op_length _, rfl⟩
theorem add : Statement .add := fun _ => ⟨rfl, rfl, op_length _, rfl⟩
theorem subtract : Statement .subtract := fun _ => ⟨rfl, rfl, op_length _, rfl⟩
theorem multiply : Statement .multiply := fun _ => ⟨rfl, rfl, op_length _, rfl⟩
theorem divide : Statement .divide := fun _ => ⟨rfl, rfl, op_length _, rfl⟩
theorem compareEqual : Statement .compareEqual := fun _ => ⟨rfl, rfl, op_length _, rfl⟩
theorem noOperation : Statement .noOperation := fun _ => ⟨rfl, rfl, op_length _, rfl⟩
theorem push (r : Word) : Statement (.push r) := fun _ => ⟨rfl, rfl, op_length _, rfl⟩
theorem pop (r : Word) : Statement (.pop r) := fun _ => ⟨rfl, rfl, op_length _, rfl⟩

end Sys2Proof.Laws.EncodedLength
end

