-- ==== Sys2Proof/Laws/Step.lean ====
section
/-! SUPPORT. Say once what `execute`, `exec` and `step` can do: inversion lemmas that every claim about all instructions
goes through. -/

namespace Sys2Proof.Machine

/-- `u` differs from `s` in registers and memory only. -/
def SameFrame (s u : State) : Prop :=
  u.cfg = s.cfg ∧ u.pc = s.pc ∧ u.status = s.status ∧ u.fault = s.fault ∧ u.regs.length = s.regs.length

theorem SameFrame.refl (s : State) : SameFrame s s := ⟨rfl, rfl, rfl, rfl, rfl⟩

theorem SameFrame.trans {s t u : State} (h : SameFrame s t) (h' : SameFrame t u) : SameFrame s u :=
  ⟨h'.1.trans h.1, h'.2.1.trans h.2.1, h'.2.2.1.trans h.2.2.1, h'.2.2.2.1.trans h.2.2.2.1,
    h'.2.2.2.2.trans h.2.2.2.2⟩

theorem SameFrame.writeReg (s : State) (i : Nat) (v : Word) : SameFrame s (s.writeReg i v) :=
  ⟨rfl, rfl, rfl, rfl, by simp⟩

theorem SameFrame.mirror (s : State) (a : Word) : SameFrame s (s.mirror a) := SameFrame.writeReg s _ _

/-- What a checked word write can do. -/
theorem writeWord_cases {s : State} {a : Int} {v : Word} (r : Except Cause State) (h : writeWord s a v = r) :
    (¬ s.WordInMemory a ∧ r = .error (.memoryFault a)) ∨
    (s.WordInMemory a ∧ r = .ok (s.setMem (s.mem.writeLE a.toNat 4 v.toNat))) := by
  by_cases hb : s.WordInMemory a
  · exact .inr ⟨hb, h ▸ writeWord_ok v hb⟩
  · exact .inl ⟨hb, h ▸ writeWord_error v hb⟩

/-- What a checked word read can do. -/
theorem readWord_cases {s : State} {a : Int} (r : Except Cause Word) (h : readWord s a = r) :
    (¬ s.WordInMemory a ∧ r = .error (.memoryFault a)) ∨ (s.WordInMemory a ∧ r = .ok (s.wordAt a.toNat)) := by
  by_cases hb : s.WordInMemory a
  · exact .inr ⟨hb, h ▸ readWord_ok hb⟩
  · exact .inl ⟨hb, h ▸ readWord_error hb⟩

/-- What a register index check can do. -/
theorem regIndex_cases {s : State} {f : Word} (r : Except Cause Nat) (h : regIndex s f = r) :
    (s.cfg.regCount ≤ f.toNat ∧ r = .error (.registerFault f.toNat)) ∨
    (f.toNat < s.cfg.regCount ∧ r = .ok f.toNat) := by
  rcases Nat.lt_or_ge f.toNat s.cfg.regCount with hb | hb
  · exact .inr ⟨hb, h ▸ regIndex_ok hb⟩
  · exact .inl ⟨hb, h ▸ regIndex_error hb⟩

/-! ## What each `execute` can do -/

theorem storeBody_cases {r addr : Word} {s : State} :
    (s.cfg.regCount ≤ r.toNat ∧ storeBody r addr s = .error (.registerFault r.toNat)) ∨
    (r.toNat < s.cfg.regCount ∧ ¬ s.WordInMemory (addressU32 addr) ∧
      storeBody r addr s = .error (.memoryFault (addressU32 addr))) ∨
    (r.toNat < s.cfg.regCount ∧ s.WordInMemory (addressU32 addr) ∧
      storeBody r addr s = .ok (s.setMem (s.mem.writeLE addr.toNat 4 (s.readReg r.toNat).toNat))) := by
  unfold storeBody
  rcases regIndex_cases _ (Eq.refl (regIndex s r)) with ⟨h, e⟩ | ⟨h, e⟩ <;> rw [e]
  · exact .inl ⟨h, rfl⟩
  · rcases writeWord_cases _ (Eq.refl (writeWord s (addressU32 addr) (s.readReg r.toNat))) with ⟨hb, e⟩ | ⟨hb, e⟩
    · exact .inr (.inl ⟨h, hb, e⟩)
    · exact .inr (.inr ⟨h, hb, e⟩)

theorem loadBody_cases {r imm : Word} {s : State} :
    (s.cfg.regCount ≤ r.toNat ∧ loadBody r imm s = .error (.registerFault r.toNat)) ∨
    (r.toNat < s.cfg.regCount ∧ loadBody r imm s = .ok (s.writeReg r.toNat imm)) := by
  unfold loadBody
  rcases regIndex_cases _ (Eq.refl (regIndex s r)) with ⟨h, e⟩ | ⟨h, e⟩ <;> rw [e]
  · exact .inl ⟨h, rfl⟩
  · exact .inr ⟨h, rfl⟩

theorem loadIndirectBody_cases {r addr : Word} {s : State} :
    (s.cfg.regCount ≤ r.toNat ∧ loadIndirectBody r addr s = .error (.registerFault r.toNat)) ∨
    (r.toNat < s.cfg.regCount ∧ ¬ s.WordInMemory addr.toInt ∧
      loadIndirectBody r addr s = .error (.memoryFault addr.toInt)) ∨
    (r.toNat < s.cfg.regCount ∧ s.WordInMemory addr.toInt ∧
      loadIndirectBody r addr s = .ok (s.writeReg r.toNat (s.wordAt addr.toNat))) := by
  unfold loadIndirectBody
  rcases regIndex_cases _ (Eq.refl (regIndex s r)) with ⟨h, e⟩ | ⟨h, e⟩ <;> rw [e]
  · exact .inl ⟨h, rfl⟩
  · rcases readWord_cases _ (Eq.refl (readWord s (addressI32 addr))) with ⟨hb, e⟩ | ⟨hb, e⟩
    · exact .inr (.inl ⟨h, hb, by simp only [e]; rfl⟩)
    · exact .inr (.inr ⟨h, hb, by rw [← toNat_toInt hb.1]; simp only [e]; rfl⟩)

theorem moveRegisterBody_cases {rd rs : Word} {s : State} :
    (s.cfg.regCount ≤ rd.toNat ∧ moveRegisterBody rd rs s = .error (.registerFault rd.toNat)) ∨
    (rd.toNat < s.cfg.regCount ∧ s.cfg.regCount ≤ rs.toNat ∧
      moveRegisterBody rd rs s = .error (.registerFault rs.toNat)) ∨
    (rd.toNat < s.cfg.regCount ∧ rs.toNat < s.cfg.regCount ∧
      moveRegisterBody rd rs s = .ok (s.writeReg rd.toNat (s.readReg rs.toNat))) := by
  unfold moveRegisterBody
  rcases regIndex_cases _ (Eq.refl (regIndex s rd)) with ⟨h, e⟩ | ⟨h, e⟩ <;> rw [e]
  · exact .inl ⟨h, rfl⟩
  · rcases regIndex_cases _ (Eq.refl (regIndex s rs)) with ⟨hb, e⟩ | ⟨hb, e⟩ <;> simp only [e]
    · exact .inr (.inl ⟨h, hb, trivial⟩)
    · exact .inr (.inr ⟨h, hb, trivial⟩)

theorem writeA_cases {exact : Int} {s : State} :
    (s.cfg.arithOverflow = .fault ∧ ¬ (-2147483648 ≤ exact ∧ exact ≤ 2147483647) ∧
      writeA s exact = .error (.arithmeticFault 2)) ∨
    ((s.cfg.arithOverflow = .wrap ∨ (-2147483648 ≤ exact ∧ exact ≤ 2147483647)) ∧
      writeA s exact = .ok (s.writeReg s.cfg.idxA (wrap32 exact))) := by
  unfold writeA
  by_cases h : s.cfg.arithOverflow = .wrap ∨ (-2147483648 ≤ exact ∧ exact ≤ 2147483647)
  · exact .inr ⟨h, by rw [arithResult_ok h]⟩
  · obtain ⟨hp, hr⟩ := not_or.1 h
    have hp : s.cfg.arithOverflow = .fault := by
      cases he : s.cfg.arithOverflow
      · exact absurd he hp
      · rfl
    exact .inl ⟨hp, hr, by rw [hp, arithResult_error hr]⟩

theorem divideBody_cases {s : State} :
    (∃ sub, divideBody s = .error (.arithmeticFault sub)) ∨
    (∃ q r, divResult s.cfg.divOverflow s.regA.toInt s.regB.toInt = .ok (q, r) ∧
      divideBody s = .ok ((s.writeReg s.cfg.idxA q).writeReg s.cfg.idxC r)) := by
  unfold divideBody
  by_cases hb : s.regB.toInt = 0
  · exact .inl ⟨0, by rw [divResult_zero _ hb]⟩
  · by_cases hm : s.regA.toInt = -2147483648 ∧ s.regB.toInt = -1
    · cases hp : s.cfg.divOverflow
      · exact .inr ⟨_, _, by rw [divResult_corner _ hm.1 hm.2], by rw [divResult_corner _ hm.1 hm.2]⟩
      · exact .inl ⟨1, by rw [divResult_corner _ hm.1 hm.2]⟩
    · exact .inr ⟨_, _, divResult_ok _ hb hm, by rw [divResult_ok _ hb hm]⟩

theorem pushBody_cases {r : Word} {s : State} :
    (s.cfg.regCount ≤ r.toNat ∧ pushBody r s = .error (.registerFault r.toNat)) ∨
    (r.toNat < s.cfg.regCount ∧ ¬ s.WordInMemory (pushPointer s).toInt ∧
      pushBody r s = .error (.memoryFault (pushPointer s).toInt)) ∨
    (r.toNat < s.cfg.regCount ∧ s.WordInMemory (pushPointer s).toInt ∧
      pushBody r s = .ok ((s.writeReg s.cfg.idxSP (pushPointer s)).setMem (s.mem.writeLE (pushPointer s).toNat 4
        ((s.writeReg s.cfg.idxSP (pushPointer s)).readReg r.toNat).toNat))) := by
  unfold pushBody
  rcases regIndex_cases _ (Eq.refl (regIndex s r)) with ⟨h, e⟩ | ⟨h, e⟩ <;> simp only [e]
  · exact .inl ⟨h, trivial⟩
  · rcases writeWord_cases _ (Eq.refl (writeWord (s.writeReg s.cfg.idxSP (pushPointer s)) (pushPointer s).toInt
      ((s.writeReg s.cfg.idxSP (pushPointer s)).readReg r.toNat))) with ⟨hb, e⟩ | ⟨hb, e⟩
    · exact .inr (.inl ⟨h, hb, e⟩)
    · exact .inr (.inr ⟨h, hb, by rw [e, toNat_toInt hb.1]; rfl⟩)

theorem popBody_cases {r : Word} {s : State} :
    (s.cfg.regCount ≤ r.toNat ∧ popBody r s = .error (.registerFault r.toNat)) ∨
    (r.toNat < s.cfg.regCount ∧ ¬ s.WordInMemory s.regSP.toInt ∧ popBody r s = .error (.memoryFault s.regSP.toInt)) ∨
    (r.toNat < s.cfg.regCount ∧ s.WordInMemory s.regSP.toInt ∧
      popBody r s = .ok ((s.writeReg r.toNat (s.wordAt s.regSP.toNat)).writeReg s.cfg.idxSP
        ((s.writeReg r.toNat (s.wordAt s.regSP.toNat)).readReg s.cfg.idxSP + 4))) := by
  unfold popBody
  rcases regIndex_cases _ (Eq.refl (regIndex s r)) with ⟨h, e⟩ | ⟨h, e⟩ <;> simp only [e]
  · exact .inl ⟨h, trivial⟩
  · rcases readWord_cases _ (Eq.refl (readWord s s.regSP.toInt)) with ⟨hb, e⟩ | ⟨hb, e⟩ <;>
      simp only [popPointer, e]
    · exact .inr (.inl ⟨h, hb, trivial⟩)
    · exact .inr (.inr ⟨h, hb, by rw [toNat_toInt hb.1]; rfl⟩)

/-! ## What `exec` and `step` can do -/

/-- The `execute` of an instruction other than Halt. -/
def bodyOf : Instr → State → Except Cause State
  | .halt => .ok
  | .jump _ => .ok
  | .store r addr => storeBody r addr
  | .load r imm => loadBody r imm
  | .loadIndirect r addr => loadIndirectBody r addr
  | .moveRegister rd rs => moveRegisterBody rd rs
  | .add => addBody
  | .subtract => subtractBody
  | .multiply => multiplyBody
  | .divide => divideBody
  | .compareEqual => compareEqualBody
  | .noOperation => .ok
  | .push r => pushBody r
  | .pop r => popBody r

/-- Where `pc` goes when the instruction, other than Halt, completes. -/
def pcNextOf (s : State) : Instr → Word
  | .jump target => target
  | i => s.pcSeq i.length

/-- Every instruction but Halt is `runInstr` of its `execute`. -/
theorem exec_eq_runInstr {i : Instr} (h : i ≠ .halt) (s : State) :
    exec i s = runInstr s i.opcode (pcNextOf s i) (bodyOf i) := by
  cases i with
  | halt => exact absurd rfl h
  | _ => rfl

theorem exec_halt (s : State) : exec .halt s = .next ((s.mirror s.pc).setStatus .halted) := rfl

/-- An `execute` that does not raise leaves everything but registers and memory. -/
theorem bodyOf_sameFrame {i : Instr} {s u : State} (h : bodyOf i s = .ok u) : SameFrame s u := by
  cases i with
  | halt => cases h; exact SameFrame.refl s
  | jump _ => cases h; exact SameFrame.refl s
  | noOperation => cases h; exact SameFrame.refl s
  | store r addr =>
    rcases storeBody_cases (r := r) (addr := addr) (s := s) with ⟨_, e⟩ | ⟨_, _, e⟩ | ⟨_, _, e⟩ <;>
      cases h.symm.trans e
    exact ⟨rfl, rfl, rfl, rfl, rfl⟩
  | load r imm =>
    rcases loadBody_cases (r := r) (imm := imm) (s := s) with ⟨_, e⟩ | ⟨_, e⟩ <;> cases h.symm.trans e
    exact SameFrame.writeReg ..
  | loadIndirect r addr =>
    rcases loadIndirectBody_cases (r := r) (addr := addr) (s := s) with ⟨_, e⟩ | ⟨_, _, e⟩ | ⟨_, _, e⟩ <;>
      cases h.symm.trans e
    exact SameFrame.writeReg ..
  | moveRegister rd rs =>
    rcases moveRegisterBody_cases (rd := rd) (rs := rs) (s := s) with ⟨_, e⟩ | ⟨_, _, e⟩ | ⟨_, _, e⟩ <;>
      cases h.symm.trans e
    exact SameFrame.writeReg ..
  | add =>
    rcases writeA_cases (s := s) (exact := s.regA.toInt + s.regB.toInt) with ⟨_, _, e⟩ | ⟨_, e⟩ <;>
      cases h.symm.trans e
    exact SameFrame.writeReg ..
  | subtract =>
    rcases writeA_cases (s := s) (exact := s.regA.toInt - s.regB.toInt) with ⟨_, _, e⟩ | ⟨_, e⟩ <;>
      cases h.symm.trans e
    exact SameFrame.writeReg ..
  | multiply =>
    rcases writeA_cases (s := s) (exact := s.regA.toInt * s.regB.toInt) with ⟨_, _, e⟩ | ⟨_, e⟩ <;>
      cases h.symm.trans e
    exact SameFrame.writeReg ..
  | divide =>
    rcases divideBody_cases (s := s) with ⟨_, e⟩ | ⟨_, _, _, e⟩ <;> cases h.symm.trans e
    exact (SameFrame.writeReg ..).trans (SameFrame.writeReg ..)
  | compareEqual => cases h; exact SameFrame.writeReg ..
  | push r =>
    rcases pushBody_cases (r := r) (s := s) with ⟨_, e⟩ | ⟨_, _, e⟩ | ⟨_, _, e⟩ <;> cases h.symm.trans e
    exact ⟨rfl, rfl, rfl, rfl, by simp⟩
  | pop r =>
    rcases popBody_cases (r := r) (s := s) with ⟨_, e⟩ | ⟨_, _, e⟩ | ⟨_, _, e⟩ <;> cases h.symm.trans e
    exact (SameFrame.writeReg ..).trans (SameFrame.writeReg ..)

/-- The registers an `execute` can write besides the destination its instruction names (R25). -/
def Instr.writesImplicitly (c : Config) : Instr → List Nat
  | .add => [c.idxA]
  | .subtract => [c.idxA]
  | .multiply => [c.idxA]
  | .compareEqual => [c.idxA]
  | .divide => [c.idxA, c.idxC]
  | .push _ => [c.idxSP]
  | .pop _ => [c.idxSP]
  | _ => []

/-- An `execute` that does not raise leaves every register it does not write. -/
theorem bodyOf_readReg {i : Instr} {s u : State} (h : bodyOf i s = .ok u) {j : Nat} (hd : i.destination ≠ some j)
    (hw : j ∉ Instr.writesImplicitly s.cfg i) : u.readReg j = s.readReg j := by
  cases i with
  | halt => cases h; rfl
  | jump _ => cases h; rfl
  | noOperation => cases h; rfl
  | store r addr =>
    rcases storeBody_cases (r := r) (addr := addr) (s := s) with ⟨_, e⟩ | ⟨_, _, e⟩ | ⟨_, _, e⟩ <;>
      cases h.symm.trans e
    rfl
  | load r imm =>
    rcases loadBody_cases (r := r) (imm := imm) (s := s) with ⟨_, e⟩ | ⟨_, e⟩ <;> cases h.symm.trans e
    exact State.readReg_writeReg_other _ _ _ (fun he => hd (congrArg some he.symm))
  | loadIndirect r addr =>
    rcases loadIndirectBody_cases (r := r) (addr := addr) (s := s) with ⟨_, e⟩ | ⟨_, _, e⟩ | ⟨_, _, e⟩ <;>
      cases h.symm.trans e
    exact State.readReg_writeReg_other _ _ _ (fun he => hd (congrArg some he.symm))
  | moveRegister rd rs =>
    rcases moveRegisterBody_cases (rd := rd) (rs := rs) (s := s) with ⟨_, e⟩ | ⟨_, _, e⟩ | ⟨_, _, e⟩ <;>
      cases h.symm.trans e
    exact State.readReg_writeReg_other _ _ _ (fun he => hd (congrArg some he.symm))
  | add =>
    rcases writeA_cases (s := s) (exact := s.regA.toInt + s.regB.toInt) with ⟨_, _, e⟩ | ⟨_, e⟩ <;>
      cases h.symm.trans e
    exact State.readReg_writeReg_other _ _ _ (by simpa [Instr.writesImplicitly] using hw)
  | subtract =>
    rcases writeA_cases (s := s) (exact := s.regA.toInt - s.regB.toInt) with ⟨_, _, e⟩ | ⟨_, e⟩ <;>
      cases h.symm.trans e
    exact State.readReg_writeReg_other _ _ _ (by simpa [Instr.writesImplicitly] using hw)
  | multiply =>
    rcases writeA_cases (s := s) (exact := s.regA.toInt * s.regB.toInt) with ⟨_, _, e⟩ | ⟨_, e⟩ <;>
      cases h.symm.trans e
    exact State.readReg_writeReg_other _ _ _ (by simpa [Instr.writesImplicitly] using hw)
  | divide =>
    simp only [Instr.writesImplicitly, List.mem_cons, List.not_mem_nil, or_false, not_or] at hw
    rcases divideBody_cases (s := s) with ⟨_, e⟩ | ⟨_, _, _, e⟩ <;> cases h.symm.trans e
    exact (State.readReg_writeReg_other _ _ _ hw.2).trans (State.readReg_writeReg_other _ _ _ hw.1)
  | compareEqual =>
    cases h
    exact State.readReg_writeReg_other _ _ _ (by simpa [Instr.writesImplicitly] using hw)
  | push r =>
    rcases pushBody_cases (r := r) (s := s) with ⟨_, e⟩ | ⟨_, _, e⟩ | ⟨_, _, e⟩ <;> cases h.symm.trans e
    exact State.readReg_writeReg_other _ _ _ (by simpa [Instr.writesImplicitly] using hw)
  | pop r =>
    rcases popBody_cases (r := r) (s := s) with ⟨_, e⟩ | ⟨_, _, e⟩ | ⟨_, _, e⟩ <;> cases h.symm.trans e
    exact (State.readReg_writeReg_other _ _ _ (by simpa [Instr.writesImplicitly] using hw)).trans
      (State.readReg_writeReg_other _ _ _ (fun he => hd (congrArg some he.symm)))

/-- What an `execute` that does not raise does to memory: nothing, or the one word write of Store or Push. -/
theorem bodyOf_mem {i : Instr} {s u : State} (h : bodyOf i s = .ok u) :
    (∃ r addr v, i = .store r addr ∧ s.WordInMemory (addressU32 addr) ∧ u.mem = s.mem.writeLE addr.toNat 4 v) ∨
    (∃ r v, i = .push r ∧ s.WordInMemory (pushPointer s).toInt ∧
      u.mem = s.mem.writeLE (pushPointer s).toNat 4 v) ∨
    ((∀ r addr, i ≠ .store r addr) ∧ (∀ r, i ≠ .push r) ∧ u.mem = s.mem) := by
  cases i with
  | halt => cases h; exact .inr (.inr ⟨by simp, by simp, rfl⟩)
  | jump _ => cases h; exact .inr (.inr ⟨by simp, by simp, rfl⟩)
  | noOperation => cases h; exact .inr (.inr ⟨by simp, by simp, rfl⟩)
  | compareEqual => cases h; exact .inr (.inr ⟨by simp, by simp, rfl⟩)
  | store r addr =>
    rcases storeBody_cases (r := r) (addr := addr) (s := s) with ⟨_, e⟩ | ⟨_, _, e⟩ | ⟨_, hb, e⟩ <;>
      cases h.symm.trans e
    exact .inl ⟨r, addr, _, rfl, hb, rfl⟩
  | load r imm =>
    rcases loadBody_cases (r := r) (imm := imm) (s := s) with ⟨_, e⟩ | ⟨_, e⟩ <;> cases h.symm.trans e
    exact .inr (.inr ⟨by simp, by simp, rfl⟩)
  | loadIndirect r addr =>
    rcases loadIndirectBody_cases (r := r) (addr := addr) (s := s) with ⟨_, e⟩ | ⟨_, _, e⟩ | ⟨_, _, e⟩ <;>
      cases h.symm.trans e
    exact .inr (.inr ⟨by simp, by simp, rfl⟩)
  | moveRegister rd rs =>
    rcases moveRegisterBody_cases (rd := rd) (rs := rs) (s := s) with ⟨_, e⟩ | ⟨_, _, e⟩ | ⟨_, _, e⟩ <;>
      cases h.symm.trans e
    exact .inr (.inr ⟨by simp, by simp, rfl⟩)
  | add =>
    rcases writeA_cases (s := s) (exact := s.regA.toInt + s.regB.toInt) with ⟨_, _, e⟩ | ⟨_, e⟩ <;>
      cases h.symm.trans e
    exact .inr (.inr ⟨by simp, by simp, rfl⟩)
  | subtract =>
    rcases writeA_cases (s := s) (exact := s.regA.toInt - s.regB.toInt) with ⟨_, _, e⟩ | ⟨_, e⟩ <;>
      cases h.symm.trans e
    exact .inr (.inr ⟨by simp, by simp, rfl⟩)
  | multiply =>
    rcases writeA_cases (s := s) (exact := s.regA.toInt * s.regB.toInt) with ⟨_, _, e⟩ | ⟨_, e⟩ <;>
      cases h.symm.trans e
    exact .inr (.inr ⟨by simp, by simp, rfl⟩)
  | divide =>
    rcases divideBody_cases (s := s) with ⟨_, e⟩ | ⟨_, _, _, e⟩ <;> cases h.symm.trans e
    exact .inr (.inr ⟨by simp, by simp, rfl⟩)
  | push r =>
    rcases pushBody_cases (r := r) (s := s) with ⟨_, e⟩ | ⟨_, _, e⟩ | ⟨_, hb, e⟩ <;> cases h.symm.trans e
    exact .inr (.inl ⟨r, _, rfl, hb, rfl⟩)
  | pop r =>
    rcases popBody_cases (r := r) (s := s) with ⟨_, e⟩ | ⟨_, _, e⟩ | ⟨_, _, e⟩ <;> cases h.symm.trans e
    exact .inr (.inr ⟨by simp, by simp, rfl⟩)

/-- What `exec` can do: Halt's two writes, the fault entry, or the end of the cycle on what `execute` left. -/
theorem exec_cases {i : Instr} {s t : State} (h : exec i s = .next t) :
    (i = .halt ∧ t = (s.mirror s.pc).setStatus .halted) ∨
    (i ≠ .halt ∧ ∃ c, bodyOf i (s.mirror (s.pcSeq i.length)) = .error c ∧ t = s.takeFault c) ∨
    (i ≠ .halt ∧ ∃ u, bodyOf i (s.mirror (s.pcSeq i.length)) = .ok u ∧ SameFrame s u ∧
      t = u.retire (pcNextOf s i)) := by
  by_cases hi : i = .halt
  · subst hi
    rw [exec_halt] at h
    exact .inl ⟨rfl, by simpa using h.symm⟩
  · rw [exec_eq_runInstr hi] at h
    rcases runInstr_cases h with ⟨c, hc, ht⟩ | ⟨u, hu, ht⟩
    · exact .inr (.inl ⟨hi, c, hc, ht⟩)
    · exact .inr (.inr ⟨hi, u, hu, (SameFrame.mirror s _).trans (bodyOf_sameFrame hu), ht⟩)

/-- `exec` always answers a next state: no instruction is refused, and a fault's entry is one. -/
theorem exec_next (i : Instr) (s : State) : ∃ t, exec i s = .next t := by
  by_cases hi : i = .halt
  · exact ⟨_, hi ▸ exec_halt s⟩
  · rw [exec_eq_runInstr hi]
    exact runInstr_next ..

/-- What a step that answers a next state is: one of a running machine, which takes a fault of the fetch or runs the
instruction fetched. -/
theorem step_cases {s t : State} (h : step s = .next t) :
    s.status = .running ∧
    ((∃ c, fetchDecode s = .error c ∧ t = s.takeFault c) ∨ (∃ i, fetchDecode s = .ok i ∧ exec i s = .next t)) := by
  unfold step at h
  split at h
  · cases h
  · cases h
  · rename_i hr
    refine ⟨hr, ?_⟩
    split at h
    · rename_i c hc
      exact .inl ⟨c, hc, by simpa using h.symm⟩
    · rename_i i hi
      exact .inr ⟨i, hi, h⟩

theorem step_of_fetched {s : State} (hr : s.status = .running) {i : Instr} (h : fetchDecode s = .ok i) :
    step s = exec i s := by
  simp only [step, hr, h]

theorem step_of_fetch_fault {s : State} (hr : s.status = .running) {c : Cause} (h : fetchDecode s = .error c) :
    step s = .next (s.takeFault c) := by
  simp only [step, hr, h]

end Sys2Proof.Machine
end

