-- ==== Sys2Proof/Machine/Assembly.lean ====
section
/-! DEFINITION. The program encoder (30_encoding.md R96) and what the lines of the assembly notation stand for (R95):
register names, labels, repeated instructions, `.word` and `.byte`. The spelling of a line as text is left out. None of it is
part of the hardware. -/

namespace Sys2Proof.Assembly

/-! ## The append-only builder (R96) -/

/-- The bytes appended so far. The builder validates nothing. -/
abbrev Builder := List Byte

def Builder.appendByte (p : Builder) (b : Byte) : Builder := p ++ [b]
def Builder.appendOpcode (p : Builder) (m : OpcodeMap) (op : Opcode) : Builder := p.appendByte (m.byteOf op)
def Builder.appendWord (p : Builder) (v : Word) : Builder := p ++ le32 v

/-! ## The notation (R95) -/

/-- A register operand: one of the six names, or `x<n>`. -/
inductive Register where
  | A
  | B
  | C
  | SP
  | IP
  | CYC
  | x (n : Nat)
  deriving DecidableEq, Repr

/-- A literal, address or target: an integer, or the name of a label. -/
inductive Value where
  | number (v : Int)
  | label (name : String)
  deriving DecidableEq, Repr

/-- An instruction as written: the mnemonics of R86 with their operands in field order. -/
inductive Statement where
  | halt
  | jump (t : Value)
  | store (r : Register) (addr : Value)
  | load (r : Register) (imm : Value)
  | loadIndirect (r : Register) (addr : Value)
  | moveRegister (rd rs : Register)
  | add
  | subtract
  | multiply
  | divide
  | compareEqual
  | noOperation
  | push (r : Register)
  | pop (r : Register)
  deriving DecidableEq, Repr

/-- One item of a program: a label, `k` copies of an instruction, or data. -/
inductive Line where
  | label (name : String)
  | instruction (i : Statement) (copies : Nat)
  | word (v : Int)
  | byte (b : Byte)
  deriving DecidableEq, Repr

/-- The index a register operand stands for. -/
def Register.index (c : Config) : Register → Nat
  | .A => c.idxA
  | .B => c.idxB
  | .C => c.idxC
  | .SP => c.idxSP
  | .IP => c.idxIP
  | .CYC => c.idxCYC
  | .x n => n

/-- The four bytes' worth of an integer that is a member of `i32` or of `u32` (R92); no other integer has one. -/
def wordOf (v : Int) : Option Word :=
  if -2147483648 ≤ v ∧ v < 4294967296 then some (BitVec.ofInt 32 v) else none

/-- The operation of a statement. -/
def Statement.opcode : Statement → Opcode
  | .halt => .halt
  | .jump _ => .jump
  | .store _ _ => .store
  | .load _ _ => .load
  | .loadIndirect _ _ => .loadIndirect
  | .moveRegister _ _ => .moveRegister
  | .add => .add
  | .subtract => .subtract
  | .multiply => .multiply
  | .divide => .divide
  | .compareEqual => .compareEqual
  | .noOperation => .noOperation
  | .push _ => .push
  | .pop _ => .pop

/-- How many bytes a line places. -/
def Line.size : Line → Nat
  | .label _ => 0
  | .instruction i copies => copies * i.opcode.length
  | .word _ => 4
  | .byte _ => 1

/-- The address of the line after a label, in a program whose first line stands at `a`. The first label of a name counts
(log entry 20). -/
def labelAddress (name : String) : Nat → List Line → Option Nat
  | _, [] => none
  | a, l :: ls => if l = .label name then some a else labelAddress name (a + l.size) ls

/-- The word an operand stands for, if its label is defined and its value fits. -/
def Value.resolve (program : List Line) : Value → Option Word
  | .number v => wordOf v
  | .label name => (labelAddress name 0 program).bind (fun a => wordOf a)

/-- The word a register operand stands for. -/
def Register.resolve (c : Config) (r : Register) : Option Word := wordOf (r.index c)

/-- The operand fields of a statement, field 0 and field 1; a field the format lacks is 0 and is not placed. -/
def Statement.resolve (c : Config) (program : List Line) : Statement → Option (Word × Word)
  | .jump t => (t.resolve program).map (fun w => (w, 0))
  | .store r v => (r.resolve c).bind (fun i => (v.resolve program).map (fun w => (i, w)))
  | .load r v => (r.resolve c).bind (fun i => (v.resolve program).map (fun w => (i, w)))
  | .loadIndirect r v => (r.resolve c).bind (fun i => (v.resolve program).map (fun w => (i, w)))
  | .moveRegister rd rs => (rd.resolve c).bind (fun d => (rs.resolve c).map (fun i => (d, i)))
  | .push r => (r.resolve c).map (fun i => (i, 0))
  | .pop r => (r.resolve c).map (fun i => (i, 0))
  | .halt | .add | .subtract | .multiply | .divide | .compareEqual | .noOperation => some (0, 0)

/-- The bytes of a line, within its program. -/
def Line.bytes (c : Config) (program : List Line) : Line → Option (List Byte)
  | .label _ => some []
  | .instruction i copies =>
    (i.resolve c program).map
      (fun f => (List.replicate copies (encode c.opc (Instr.build i.opcode f.1 f.2))).flatten)
  | .word v => (wordOf v).map le32
  | .byte b => some [b]

/-- The bytes of a program, to be loaded at address 0; none where a label is missing or a value does not fit. -/
def image (c : Config) (program : List Line) : Option (List Byte) :=
  program.foldr (fun l rest => (l.bytes c program).bind (fun bs => rest.map (fun more => bs ++ more))) (some [])

end Sys2Proof.Assembly
end

