-- ==== Sys2Proof/Tests/Slice0.lean ====
section
/-! SUPPORT. The model's own tests. Expected values are those of spec/95_test_vectors.md (named F1, M7, K2, ...), written by
hand; then, for each statement that has hypotheses, a state and operands that meet them. -/

namespace Sys2Proof.Tests

open Sys2Proof Sys2Proof.Machine

/-! ## Small states -/

/-- A running machine with the default parameters, these registers `[A, B, C, SP, IP, CYC]`, and these bytes at `pc`. -/
def at_ (pc : Word) (regs : List Word) (code : List Byte) : State :=
  { State.reset with pc := pc, regs := regs, mem := Memory.writeBytes [] pc.toNat code }

/-- More bytes in memory. -/
def put (a : Nat) (bytes : List Byte) (s : State) : State := s.setMem (s.mem.writeBytes a bytes)

/-- The next state, if there is one. -/
def nextOf : Host.Outcome State Fault Refusal → Option State
  | .next t => some t
  | .fault _ => none
  | .refused _ => none

/-- `pc`, registers and status after one step. -/
def after (s : State) : Option (Word × List Word × Status) := (nextOf (step s)).map (fun t => (t.pc, t.regs, t.status))

/-- Kind, code, `at` and `info` of the fault a step raises, where everything else is as it was. -/
def faults (s : State) : Option (FaultKind × Nat × Word × Int) :=
  match nextOf (step s) with
  | none => none
  | some t =>
    match t.fault with
    | none => none
    | some r => if t = { s with status := .faulted, fault := some r } then some (r.kind, r.code, r.atPc, r.info) else none

/-- `n` bytes of memory from `a` after one step. -/
def bytesAfter (s : State) (a n : Nat) : Option (List Byte) :=
  (nextOf (step s)).map (fun t => (List.range n).map (fun k => t.byteAt (a + k)))

/-- Registers `[A, B, 99, 4096, 0, 0]` and one byte at address 0, as in the arithmetic vectors. -/
def arith (op : Byte) (a b : Word) : State := at_ 0 [a, b, 99, 4096, 0, 0] [op]

def zeros : List Word := [0, 0, 0, 4096, 0, 0]

/-- The default parameters with ARITH_OVERFLOW = fault and DIV_OVERFLOW = wrap. -/
def otherPolicies : Config := { Config.default with arithOverflow := .fault, divOverflow := .wrap }

def underOther (s : State) : State := { s with cfg := otherPolicies }

/-! ## WellFormed: one ill-formed term for each check, and the largest legal values -/

theorem test_wf_refuses_store_register : (Instr.store 6 0).wf Config.default = false := by decide
theorem test_wf_refuses_store_address : (Instr.store 0 4093).wf Config.default = false := by decide
theorem test_wf_refuses_load_register : (Instr.load 6 0).wf Config.default = false := by decide
theorem test_wf_refuses_loadIndirect_register : (Instr.loadIndirect 256 0).wf Config.default = false := by decide
theorem test_wf_refuses_loadIndirect_address :
    (Instr.loadIndirect 0 4093).wf Config.default = false ∧ (Instr.loadIndirect 0 (-4)).wf Config.default = false := by
  decide
theorem test_wf_refuses_moveRegister_destination : (Instr.moveRegister 6 0).wf Config.default = false := by decide
theorem test_wf_refuses_moveRegister_source : (Instr.moveRegister 0 6).wf Config.default = false := by decide
theorem test_wf_refuses_push_register : (Instr.push 6).wf Config.default = false := by decide
theorem test_wf_refuses_pop_register : (Instr.pop 6).wf Config.default = false := by decide
theorem test_wf_admits_largest :
    (Instr.store 5 4092).wf Config.default ∧ (Instr.loadIndirect 5 4092).wf Config.default ∧
      (Instr.moveRegister 5 5).wf Config.default ∧ (Instr.load 5 (-1)).wf Config.default ∧
      (Instr.jump 0x80000000).wf Config.default := by decide

/-! ## Decode: words written out from the encodings of 30_encoding.md R86 -/

theorem test_decode_format_f0 :
    decodeTableWord 8 0x00 = some .halt ∧ decodeTableWord 8 0x06 = some .add ∧ decodeTableWord 8 0x07 = some .subtract ∧
      decodeTableWord 8 0x08 = some .multiply ∧ decodeTableWord 8 0x09 = some .divide ∧
      decodeTableWord 8 0x0A = some .compareEqual ∧ decodeTableWord 8 0x0B = some .noOperation := by decide

theorem test_decode_format_f1 :
    decodeTableWord 40 0x1234567801 = some (.jump 0x12345678) ∧ decodeTableWord 40 0x000000040C = some (.push 4) ∧
      decodeTableWord 40 0x800000030D = some (.pop 0x80000003) := by decide

theorem test_decode_format_f2 :
    decodeTableWord 72 0x00000FFC0000000102 = some (.store 1 4092) ∧
      decodeTableWord 72 0xFFFFFFFF0000010003 = some (.load 256 (-1)) ∧
      decodeTableWord 72 0xFFFFFFFC0000000104 = some (.loadIndirect 1 (-4)) ∧
      decodeTableWord 72 0x000000040000000205 = some (.moveRegister 2 4) := by decide

theorem test_decode_rejects : decodeTableWord 8 0x0E = none ∧ decodeTableWord 8 0xFF = none := by decide

theorem test_decode_names_what_it_rejects :
    decode OpcodeMap.default [] = .error .noBytes ∧ decode OpcodeMap.default [0xFF] = .error (.illegalOpcode 0xFF) ∧
      decode OpcodeMap.default [0x02, 1, 0, 0, 0, 0xC8, 0, 0] = .error (.truncated 1) := by decide

/-! ## Assembly: `Load A,123; Load B,1; Add` (S-1), and the end of P3 with its labels -/

theorem test_assembly_of_s1 :
    Assembly.image Config.default
      [.instruction (.load .A (.number 123)) 1, .instruction (.load .B (.number 1)) 1, .instruction .add 1] =
      some [0x03, 0, 0, 0, 0, 0x7B, 0, 0, 0, 0x03, 1, 0, 0, 0, 1, 0, 0, 0, 0x06] := by decide

theorem test_assembly_labels_copies_data :
    Assembly.image Config.default
      [.instruction .noOperation 3, .instruction (.jump (.label "END")) 1, .word (-2), .label "END",
        .instruction (.push (.x 4)) 1, .byte 0xFF] =
      some [0x0B, 0x0B, 0x0B, 0x01, 12, 0, 0, 0, 0xFE, 0xFF, 0xFF, 0xFF, 0x0C, 4, 0, 0, 0, 0xFF] ∧
      Assembly.image Config.default [.instruction (.jump (.label "END")) 1] = none := by decide

/-! ## Fetch and decode faults (vectors F1 to F12) -/

/-- F1, F2. -/
theorem test_illegal_opcode :
    faults (at_ 10 zeros [0x0E]) = some (.decodeFault, 1, 10, 14) ∧
      faults (at_ 10 zeros [0xFF]) = some (.decodeFault, 1, 10, 255) := by decide

/-- F3, F4. -/
theorem test_fetch_outside_memory :
    faults (at_ 4096 zeros []) = some (.memoryFault, 3, 4096, 4096) ∧
      faults (at_ (-1) [0, 0, 0, 4096, 5, 1] []) = some (.memoryFault, 3, -1, -1) := by decide

/-- F6, F7, F8. -/
theorem test_field_past_the_end :
    faults (at_ 4093 zeros [0x01, 0, 0]) = some (.memoryFault, 3, 4093, 4094) ∧
      faults (at_ 4095 zeros [0x02]) = some (.memoryFault, 3, 4095, 4096) ∧
      faults (at_ 4091 zeros [0x02, 9, 0, 0, 0]) = some (.memoryFault, 3, 4091, 4096) := by decide

/-- F11, F12. -/
theorem test_stopped_machine :
    nextOf (step ((at_ 0 zeros [0x0B]).setStatus .halted)) = none ∧
      ((at_ 0 zeros [0x0B]).setStatus .halted).cycle.2 = .halt ∧
      nextOf (step ((at_ 0 zeros [0x09]).faultedWith .arithmeticFault 4 0)) = none := by decide

/-! ## Control (F10, J1 to J6, F5, F9) -/

/-- F10. -/
theorem test_halt : after (at_ 19 [0, 0, 0, 4096, 0, 3] [0x00]) = some (19, [0, 0, 0, 4096, 19, 3], .halted) := by decide

/-- J1, J2, J3. -/
theorem test_jump :
    after (at_ 0 zeros [0x01, 0x64, 0, 0, 0]) = some (100, [0, 0, 0, 4096, 5, 1], .running) ∧
      after (at_ 0 zeros [0x01, 0xFF, 0xFF, 0xFF, 0xFF]) = some (-1, [0, 0, 0, 4096, 5, 1], .running) ∧
      after (at_ 9 [1, 0, 0, 4096, 9, 1] [0x01, 0x88, 0x13, 0, 0]) = some (5000, [1, 0, 0, 4096, 14, 2], .running) := by
  decide

/-- J6, F5, F9. -/
theorem test_noOperation :
    after (at_ 7 [1, 2, 3, 4096, 0, 41] [0x0B]) = some (8, [1, 2, 3, 4096, 8, 42], .running) ∧
      after (at_ 4095 zeros [0x0B]) = some (4096, [0, 0, 0, 4096, 4096, 1], .running) ∧
      after (at_ 0 [0, 0, 0, 4096, 0, 0x7FFFFFFF] [0x0B]) = some (1, [0, 0, 0, 4096, 1, 0x80000000], .running) := by decide

/-! ## Data movement (M1 to M26) -/

/-- M1, M5, M6, M7. -/
theorem test_store :
    bytesAfter (at_ 0 [0, -2, 0, 4096, 0, 0] [0x02, 1, 0, 0, 0, 0xFC, 0x0F, 0, 0]) 4091 5 =
        some [0, 0xFE, 0xFF, 0xFF, 0xFF] ∧
      bytesAfter (at_ 50 zeros [0x02, 4, 0, 0, 0, 0xC8, 0, 0, 0]) 200 4 = some [0x3B, 0, 0, 0] ∧
      bytesAfter (at_ 0 [0, 0, 0, 4096, 0, 12] [0x02, 5, 0, 0, 0, 0xC8, 0, 0, 0]) 200 4 = some [0x0C, 0, 0, 0] ∧
      after (at_ 0 [185273099, 0, 0, 4096, 0, 0] [0x02, 0, 0, 0, 0, 0, 0, 0, 0]) =
        some (9, [185273099, 0, 0, 4096, 9, 1], .running) := by decide

/-- M2, M3, M4, M8. -/
theorem test_store_faults :
    faults (at_ 0 [0, -2, 0, 4096, 0, 0] [0x02, 1, 0, 0, 0, 0xFD, 0x0F, 0, 0]) = some (.memoryFault, 3, 0, 4093) ∧
      faults (at_ 0 zeros [0x02, 6, 0, 0, 0, 0x64, 0, 0, 0]) = some (.registerFault, 2, 0, 6) ∧
      faults (at_ 0 zeros [0x02, 9, 0, 0, 0, 0x88, 0x13, 0, 0]) = some (.registerFault, 2, 0, 9) ∧
      faults (at_ 0 zeros [0x02, 0, 0, 0, 0, 0, 0, 0, 0x80]) = some (.memoryFault, 3, 0, 2147483648) := by decide

/-- M9, M11, M12, M13. -/
theorem test_load :
    after (at_ 0 zeros [0x03, 1, 0, 0, 0, 0xFF, 0xFF, 0xFF, 0xFF]) = some (9, [0, -1, 0, 4096, 9, 1], .running) ∧
      after (at_ 0 [0, 0, 0, 4096, 0, 3] [0x03, 5, 0, 0, 0, 10, 0, 0, 0]) = some (9, [0, 0, 0, 4096, 9, 11], .running) ∧
      after (at_ 0 [0, 0, 0, 4096, 0, 3] [0x03, 5, 0, 0, 0, 0xFF, 0xFF, 0xFF, 0x7F]) =
        some (9, [0, 0, 0, 4096, 9, 0x80000000], .running) ∧
      after (at_ 0 zeros [0x03, 4, 0, 0, 0, 0x09, 0x03, 0, 0]) = some (9, [0, 0, 0, 4096, 777, 1], .running) := by decide

/-- M14, M15. -/
theorem test_load_faults :
    faults (at_ 0 zeros [0x03, 0, 1, 0, 0, 1, 0, 0, 0]) = some (.registerFault, 2, 0, 256) ∧
      faults (at_ 0 zeros [0x03, 6, 0, 0, 0, 1, 0, 0, 0]) = some (.registerFault, 2, 0, 6) := by decide

/-- M16, M19. -/
theorem test_loadIndirect :
    after (put 100 [0xFE, 0xFF, 0xFF, 0xFF] (at_ 0 zeros [0x04, 1, 0, 0, 0, 0x64, 0, 0, 0])) =
        some (9, [0, -2, 0, 4096, 9, 1], .running) ∧
      after (at_ 0 zeros [0x04, 0, 0, 0, 0, 0, 0, 0, 0]) = some (9, [4, 0, 0, 4096, 9, 1], .running) := by decide

/-- M17, M18. -/
theorem test_loadIndirect_faults :
    faults (at_ 0 zeros [0x04, 1, 0, 0, 0, 0xFC, 0xFF, 0xFF, 0xFF]) = some (.memoryFault, 3, 0, -4) ∧
      faults (at_ 0 zeros [0x04, 1, 0, 0, 0, 0xFD, 0x0F, 0, 0]) = some (.memoryFault, 3, 0, 4093) := by decide

/-- M20, M24, M25, M26. -/
theorem test_moveRegister :
    after (at_ 0 [7, 0, 0, 4096, 0, 0] [0x05, 2, 0, 0, 0, 0, 0, 0, 0]) = some (9, [7, 0, 7, 4096, 9, 1], .running) ∧
      after (at_ 0 [41, 0, 0, 4096, 0, 3] [0x05, 5, 0, 0, 0, 0, 0, 0, 0]) = some (9, [41, 0, 0, 4096, 9, 42], .running) ∧
      after (at_ 0 [-8, 0, 0, 4096, 0, 0] [0x05, 3, 0, 0, 0, 0, 0, 0, 0]) = some (9, [-8, 0, 0, -8, 9, 1], .running) ∧
      after (at_ 0 zeros [0x05, 0, 0, 0, 0, 4, 0, 0, 0]) = some (9, [9, 0, 0, 4096, 9, 1], .running) := by decide

/-- M22, M23. -/
theorem test_moveRegister_faults :
    faults (at_ 0 zeros [0x05, 6, 0, 0, 0, 7, 0, 0, 0]) = some (.registerFault, 2, 0, 6) ∧
      faults (at_ 0 zeros [0x05, 0, 0, 0, 0, 7, 0, 0, 0]) = some (.registerFault, 2, 0, 7) := by decide

/-! ## Arithmetic (A1 to A32) -/

/-- A1, A2, A3. -/
theorem test_add :
    after (arith 0x06 123 1) = some (1, [124, 1, 99, 4096, 1, 1], .running) ∧
      after (arith 0x06 0x7FFFFFFF 1) = some (1, [0x80000000, 1, 99, 4096, 1, 1], .running) ∧
      after (arith 0x06 0x80000000 (-1)) = some (1, [0x7FFFFFFF, -1, 99, 4096, 1, 1], .running) := by decide

/-- A6, A8. -/
theorem test_subtract :
    after (arith 0x07 3 10) = some (1, [-7, 10, 99, 4096, 1, 1], .running) ∧
      after (arith 0x07 0 0x80000000) = some (1, [0x80000000, 0x80000000, 99, 4096, 1, 1], .running) := by decide

/-- A10, A11, A12. -/
theorem test_multiply :
    after (arith 0x08 (-7) 6) = some (1, [-42, 6, 99, 4096, 1, 1], .running) ∧
      after (arith 0x08 65536 65536) = some (1, [0, 65536, 99, 4096, 1, 1], .running) ∧
      after (arith 0x08 46341 46341) = some (1, [-2147479015, 46341, 99, 4096, 1, 1], .running) := by decide

/-- The non-default policy on A2, A8 and A11. -/
theorem test_arith_overflow_fault :
    faults (underOther (arith 0x06 0x7FFFFFFF 1)) = some (.arithmeticFault, 4, 0, 2) ∧
      faults (underOther (arith 0x07 0 0x80000000)) = some (.arithmeticFault, 4, 0, 2) ∧
      faults (underOther (arith 0x08 65536 65536)) = some (.arithmeticFault, 4, 0, 2) := by decide

/-- A14, A16, A17, and A26 under DIV_OVERFLOW = wrap. -/
theorem test_divide :
    after (arith 0x09 5 3) = some (1, [1, 3, 2, 4096, 1, 1], .running) ∧
      after (arith 0x09 (-7) 2) = some (1, [-3, 2, -1, 4096, 1, 1], .running) ∧
      after (arith 0x09 7 (-2)) = some (1, [-3, -2, 1, 4096, 1, 1], .running) ∧
      after (underOther (arith 0x09 0x80000000 (-1))) = some (1, [0x80000000, -1, 0, 4096, 1, 1], .running) := by decide

/-- A26, A27. -/
theorem test_divide_faults :
    faults (arith 0x09 0x80000000 (-1)) = some (.arithmeticFault, 4, 0, 1) ∧
      faults (arith 0x09 9 0) = some (.arithmeticFault, 4, 0, 0) := by decide

/-- A29, A30. -/
theorem test_compareEqual :
    after (arith 0x0A 5 5) = some (1, [1, 5, 99, 4096, 1, 1], .running) ∧
      after (arith 0x0A 5 (-5)) = some (1, [0, -5, 99, 4096, 1, 1], .running) := by decide

/-! ## Stack (K1 to K16) -/

/-- K2, K3, K8. -/
theorem test_push :
    after (at_ 0 zeros [0x0C, 3, 0, 0, 0]) = some (5, [0, 0, 0, 4092, 5, 1], .running) ∧
      bytesAfter (at_ 0 zeros [0x0C, 3, 0, 0, 0]) 4092 4 = some [0xFC, 0x0F, 0, 0] ∧
      bytesAfter (at_ 30 zeros [0x0C, 4, 0, 0, 0]) 4092 4 = some [0x23, 0, 0, 0] ∧
      bytesAfter (at_ 0 [287454020, 0, 0, 1003, 0, 0] [0x0C, 0, 0, 0, 0]) 999 4 = some [0x44, 0x33, 0x22, 0x11] := by decide

/-- K4, K7, K9. -/
theorem test_push_faults :
    faults (at_ 0 [7, 0, 0, 3, 0, 0] [0x0C, 0, 0, 0, 0]) = some (.memoryFault, 3, 0, -1) ∧
      faults (at_ 0 [7, 0, 0, 0x80000000, 0, 0] [0x0C, 0, 0, 0, 0]) = some (.memoryFault, 3, 0, 2147483644) ∧
      faults (at_ 0 [0, 0, 0, 0, 0, 0] [0x0C, 6, 0, 0, 0]) = some (.registerFault, 2, 0, 6) := by decide

/-- K10, K13, K14, K15. -/
theorem test_pop :
    after (put 4092 [7] (at_ 0 [0, 0, 0, 4092, 0, 0] [0x0D, 1, 0, 0, 0])) = some (5, [0, 7, 0, 4096, 5, 1], .running) ∧
      after (put 4092 [0xFE, 0xFF, 0xFF, 0x7F] (at_ 0 [0, 0, 0, 4092, 0, 0] [0x0D, 3, 0, 0, 0])) =
        some (5, [0, 0, 0, -2147483646, 5, 1], .running) ∧
      after (put 4092 [0x64] (at_ 0 [0, 0, 0, 4092, 0, 5] [0x0D, 5, 0, 0, 0])) =
        some (5, [0, 0, 0, 4096, 5, 101], .running) ∧
      after (put 4092 [0x64] (at_ 0 [0, 0, 0, 4092, 0, 0] [0x0D, 4, 0, 0, 0])) =
        some (5, [0, 0, 0, 4096, 100, 1], .running) := by decide

/-- K11, K16. -/
theorem test_pop_faults :
    faults (at_ 0 zeros [0x0D, 1, 0, 0, 0]) = some (.memoryFault, 3, 0, 4096) ∧
      faults (at_ 0 [0, 0, 0, -4, 0, 0] [0x0D, 0, 0, 0, 0]) = some (.memoryFault, 3, 0, -4) := by decide

/-! ## Witnesses: for each statement with hypotheses, a state and operands that meet them, clause by clause -/

/-- A running machine, well formed: all that HaltCompletes, JumpCompletes, NoOperationCompletes, CycleOutcomes,
StatusTransitions, ResetIsWellFormed and HostOperationsKeepWellFormed ask of a state. -/
theorem witness_running_machine : State.reset.WF ∧ State.reset.status = .running := by decide

theorem witness_DecodeInvertsEncode : OpcodeMap.default.toList.Nodup := by decide

theorem witness_EncodeInvertsDecode :
    decode OpcodeMap.default [0x0C, 3, 0, 0, 0x80, 0xFF] = .ok (.push 0x80000003, [0xFF]) := by decide

theorem witness_OpcodeByteDecidesTheInstruction :
    (13 : Byte).toNat ≤ 13 ∧ 14 ≤ (14 : Byte).toNat ∧ decode OpcodeMap.default (13 :: [5, 0, 0, 0]) = .ok (.pop 5, []) := by
  decide

/-- The last byte of memory holds NoOperation. -/
theorem witness_StepRunsTheDecodedInstruction :
    (at_ 4095 zeros [0x0B]).WF ∧ (at_ 4095 zeros [0x0B]).status = .running ∧
      decode (at_ 4095 zeros [0x0B]).cfg.opc (bytesAtPc (at_ 4095 zeros [0x0B])) = .ok (.noOperation, []) ∧
      0 ≤ (at_ 4095 zeros [0x0B]).pc.toInt ∧
      (at_ 4095 zeros [0x0B]).pc.toInt + Instr.noOperation.length ≤ (at_ 4095 zeros [0x0B]).cfg.memSize ∧
      ∀ k, k < Instr.noOperation.length → (encode (at_ 4095 zeros [0x0B]).cfg.opc .noOperation)[k]? =
        some ((at_ 4095 zeros [0x0B]).byteAt ((at_ 4095 zeros [0x0B]).pc.toNat + k)) := by decide

/-- Both sides of each of the four clauses hold somewhere. -/
theorem witness_FetchUnitAgreesWithDecoder :
    (at_ 4096 zeros []).WF ∧ decode OpcodeMap.default (bytesAtPc (at_ 4096 zeros [])) = .error .noBytes ∧
      (at_ 10 zeros [0x0E]).WF ∧ decode OpcodeMap.default (bytesAtPc (at_ 10 zeros [0x0E])) = .error (.illegalOpcode 14) ∧
      (at_ 4091 zeros [0x02]).WF ∧ decode OpcodeMap.default (bytesAtPc (at_ 4091 zeros [0x02])) = .error (.truncated 1) ∧
      (at_ 4087 zeros [0x02]).WF ∧ fetchDecode (at_ 4087 zeros [0x02]) = .ok (.store 0 0) := by
  refine ⟨?_, ?_, ?_, ?_, ?_, ?_, ?_, ?_⟩ <;> decide

theorem witness_FetchFaultsInOrder :
    (at_ 4096 zeros []).WF ∧ ¬ (0 ≤ (4096 : Word).toInt ∧ (4096 : Word).toInt < (at_ 4096 zeros []).cfg.memSize) ∧
      (at_ 4095 zeros [0x0E]).WF ∧ (at_ 4095 zeros [0x0E]).byteAt 4095 ∉ OpcodeMap.default.toList ∧
      (at_ 4092 zeros [0x01]).WF ∧ (at_ 4092 zeros [0x01]).byteAt 4092 = OpcodeMap.default.byteOf (Instr.jump 0).opcode ∧
      1 ≤ (Instr.jump 0).fields.length ∧ ((at_ 4092 zeros [0x01]).cfg.memSize : Int) < (4092 : Word).toInt + 5 ∧
      (at_ 4088 zeros [0x02]).WF ∧ (at_ 4088 zeros [0x02]).byteAt 4088 = OpcodeMap.default.byteOf (Instr.store 0 0).opcode ∧
      (Instr.store 0 0).fields.length = 2 ∧ (4088 : Word).toInt + 5 ≤ (at_ 4088 zeros [0x02]).cfg.memSize ∧
      ((at_ 4088 zeros [0x02]).cfg.memSize : Int) < (4088 : Word).toInt + 9 := by
  refine ⟨?_, ?_, ?_, ?_, ?_, ?_, ?_, ?_, ?_, ?_, ?_, ?_, ?_⟩ <;> decide

theorem witness_DecodeFaultExactlyOnIllegalByte :
    (at_ 0 zeros [0x0E]).WF ∧ (at_ 0 zeros [0x0E]).cfg.opc = OpcodeMap.default ∧
      14 ≤ ((at_ 0 zeros [0x0E]).byteAt 0).toNat ∧
      (nextOf (step (at_ 0 zeros [0x0E]))).map (fun t => t.fault.map (·.kind)) = some (some .decodeFault) := by decide

/-- NoOperation in the last byte, Jump out of memory, Halt, and a Divide by 0. -/
theorem witness_ProgramCounterUpdate :
    fetchDecode (at_ 4095 zeros [0x0B]) = .ok .noOperation ∧
      (after (at_ 4095 zeros [0x0B])).map (fun r => (r.1, r.2.2)) = some (4096, .running) ∧
      fetchDecode (at_ 0 zeros [0x01, 0, 0, 0, 0x80]) = .ok (.jump 0x80000000) ∧
      (after (at_ 0 zeros [0x01, 0, 0, 0, 0x80])).map (fun r => (r.1, r.2.2)) = some (0x80000000, .running) ∧
      fetchDecode (at_ 0 zeros [0x00]) = .ok .halt ∧ (after (at_ 0 zeros [0x00])).map (·.2.2) = some .halted ∧
      fetchDecode (at_ 0 zeros [0x09]) = .ok .divide ∧ (after (at_ 0 zeros [0x09])).map (·.2.2) = some .faulted := by decide

/-- The mirror: NoOperation, MoveRegister to another register, and the three states of the theorem above. -/
theorem witness_MirrorRegisterAfterACycle :
    (at_ 0 zeros [0x05, 0, 0, 0, 0, 4]).WF ∧
      fetchDecode (at_ 0 zeros [0x05, 0, 0, 0, 0, 4]) = .ok (.moveRegister 0 4) ∧
      (Instr.moveRegister 0 4).destination ≠ some Config.default.idxIP ∧
      (after (at_ 0 zeros [0x05, 0, 0, 0, 0, 4])).map (·.2.2) = some .running := by decide

/-- Two NoOperations in a row complete. -/
theorem witness_CycleCounterCountsCompletedInstructions :
    (at_ 0 zeros [0x0B, 0x0B]).WF ∧ ∃ t, CompletesWithout (at_ 0 zeros [0x0B, 0x0B]).cfg.idxCYC 2 (at_ 0 zeros [0x0B, 0x0B]) t :=
  ⟨by decide, _, .noOperation, _, rfl, by decide, by decide, rfl, rfl, .noOperation, _, rfl, by decide, by decide, rfl, rfl,
    rfl⟩

/-- A step to HALTED and a step to FAULTED, for FaultEntryIsPrecise, StatusTransitions and the second clause of
CycleCounterCountsCompletedInstructions. -/
theorem witness_step_that_ends_a_run :
    (∃ t, step (at_ 0 zeros [0x00]) = .next t ∧ t.status ≠ .running ∧ t.status = .halted) ∧
      ∃ t, step (at_ 0 zeros [0x09]) = .next t ∧ t.status ≠ .running ∧ t.status = .faulted :=
  ⟨⟨_, rfl, by decide, rfl⟩, ⟨_, rfl, by decide, rfl⟩⟩

theorem witness_StoppedMachineHasNoStep :
    (State.reset.setStatus .halted).status = .halted ∧ (State.reset.faultedWith .registerFault 2 6).status = .faulted := by
  decide

/-- Operands at and just past the last register and the last word of memory. -/
theorem witness_StoreRule :
    State.reset.WF ∧ State.reset.cfg.regCount ≤ (6 : Word).toNat ∧ (5 : Word).toNat < State.reset.cfg.regCount ∧
      ¬ (0 ≤ addressU32 4093 ∧ addressU32 4093 + 4 ≤ State.reset.cfg.memSize) ∧
      0 ≤ addressU32 4092 ∧ addressU32 4092 + 4 ≤ State.reset.cfg.memSize := by decide

theorem witness_LoadRule :
    State.reset.WF ∧ State.reset.cfg.regCount ≤ (6 : Word).toNat ∧ (5 : Word).toNat < State.reset.cfg.regCount := by decide

theorem witness_LoadIndirectRule :
    State.reset.WF ∧ State.reset.cfg.regCount ≤ (6 : Word).toNat ∧ (5 : Word).toNat < State.reset.cfg.regCount ∧
      ¬ (0 ≤ (-1 : Word).toInt ∧ (-1 : Word).toInt + 4 ≤ State.reset.cfg.memSize) ∧
      ¬ (0 ≤ (4093 : Word).toInt ∧ (4093 : Word).toInt + 4 ≤ State.reset.cfg.memSize) ∧
      0 ≤ (4092 : Word).toInt ∧ (4092 : Word).toInt + 4 ≤ State.reset.cfg.memSize := by decide

/-- The three clauses: `(6, 7)`, `(5, 6)`, `(5, 5)`. -/
theorem witness_MoveRegisterRule :
    State.reset.WF ∧ State.reset.cfg.regCount ≤ (6 : Word).toNat ∧ (5 : Word).toNat < State.reset.cfg.regCount := by decide

theorem witness_StoreThenLoadIndirectReadsBack :
    State.reset.WF ∧ (4 : Word).toNat < State.reset.cfg.regCount ∧ (5 : Word).toNat < State.reset.cfg.regCount ∧
      (4092 : Word).toNat + 4 ≤ State.reset.cfg.memSize := by decide

/-- The bytes the statement StoredWordIsTheNextInstruction speaks of: those from `p` up once `v` is stored at `a`. -/
def overlaid (s : State) (a : Nat) (v : Word) (p n : Nat) : List Byte :=
  (List.range n).map (fun k => if a ≤ p + k ∧ p + k < a + 4 then byteOfWord v (p + k - a) else s.byteAt (p + k))

/-- `Store A, 9` at address 0: the stored `03 01 00 00` and the old `00 07 00 00 00` behind it make `Load B, 7`. -/
theorem witness_StoredWordIsTheNextInstruction_store :
    let s := put 14 [7] (at_ 0 [0x00000103, 0, 0, 4096, 0, 0] [0x02, 0, 0, 0, 0, 9])
    s.WF ∧ s.status = .running ∧ fetchDecode s = .ok (.store 0 9) ∧ (0 : Word).toNat < s.cfg.regCount ∧
      addressU32 9 = (9 : Nat) ∧ overlaid s 9 (s.seen 9 0) 9 9 = encode s.cfg.opc (.load 1 7) ∧
      (9 : Int) + 4 ≤ s.cfg.memSize ∧ s.pc.toInt + (Instr.store 0 9).length + (Instr.load 1 7).length ≤ s.cfg.memSize := by
  refine ⟨?_, ?_, ?_, ?_, ?_, ?_, ?_, ?_⟩ <;> decide

/-- The same of a store over the operand of a Jump (as in program P3), and of one that begins before it: `Store A, 10` before `Jump 0`, and `Store A, 4092` whose top byte is a NoOperation in the last byte of memory. -/
theorem witness_StoredWordIsTheNextInstruction_patched_operand :
    (let s := at_ 0 [67, 0, 0, 4096, 0, 0] [0x02, 0, 0, 0, 0, 10, 0, 0, 0, 0x01]
     s.WF ∧ fetchDecode s = .ok (.store 0 10) ∧ addressU32 10 = (10 : Nat) ∧
      overlaid s 10 (s.seen 9 0) 9 5 = encode s.cfg.opc (.jump 67)) ∧
    (let s := at_ 4086 [0x0B000000, 0, 0, 4096, 0, 0] [0x02, 0, 0, 0, 0, 0xFC, 0x0F]
     s.WF ∧ fetchDecode s = .ok (.store 0 4092) ∧ overlaid s 4092 (s.seen 9 0) 4095 1 = encode s.cfg.opc .noOperation ∧
      s.pc.toInt + 9 + 1 = s.cfg.memSize) := by
  refine ⟨⟨?_, ?_, ?_, ?_⟩, ⟨?_, ?_, ?_, ?_⟩⟩ <;> decide

/-- Push as the writer: `Push A` at address 0 with `SP` 9 stores `01 64 00 00` over the next instruction, which becomes
`Jump 100`; and `Push SP` there stores 5, the byte of MoveRegister. -/
theorem witness_StoredWordIsTheNextInstruction_push :
    (let s := at_ 0 [0x00006401, 0, 0, 9, 0, 0] [0x0C]
     s.WF ∧ fetchDecode s = .ok (.push 0) ∧ (pushPointer s).toInt = (5 : Nat) ∧ (0 : Word).toNat ≠ s.cfg.idxSP ∧
      overlaid s 5 (s.seen 5 0) 5 5 = encode s.cfg.opc (.jump 100)) ∧
    (let s := at_ 0 [0, 0, 0, 9, 0, 0] [0x0C, 3]
     s.WF ∧ fetchDecode s = .ok (.push 3) ∧ (3 : Word).toNat = s.cfg.idxSP ∧
      overlaid s 5 (s.regSP - 4) 5 9 = encode s.cfg.opc (.moveRegister 0 0)) := by
  refine ⟨⟨?_, ?_, ?_, ?_, ?_⟩, ⟨?_, ?_, ?_, ?_⟩⟩ <;> decide

/-- An overflow under `wrap`, and the largest result under `fault`. -/
theorem witness_AddSubtractMultiplyComplete :
    (arith 0x06 0x7FFFFFFF 1).WF ∧ (arith 0x06 0x7FFFFFFF 1).cfg.arithOverflow = .wrap ∧
      (underOther (arith 0x06 0x7FFFFFFE 1)).WF ∧
      (underOther (arith 0x06 0x7FFFFFFE 1)).regA.toInt + (underOther (arith 0x06 0x7FFFFFFE 1)).regB.toInt = 2147483647 := by
  decide

theorem witness_ArithmeticOverflowFaults :
    (underOther (arith 0x06 0x7FFFFFFF 1)).WF ∧ (underOther (arith 0x06 0x7FFFFFFF 1)).cfg.arithOverflow = .fault ∧
      (underOther (arith 0x06 0x7FFFFFFF 1)).regA.toInt + (underOther (arith 0x06 0x7FFFFFFF 1)).regB.toInt = 2147483648 ∧
      ¬ ((-2147483648 : Int) ≤ 2147483648 ∧ (2147483648 : Int) ≤ 2147483647) := by decide

/-- The neighbours of the corner: `INT_MIN / 1` and `(INT_MIN + 1) / -1`. -/
theorem witness_DivideCompletes :
    (arith 0x09 0x80000000 1).WF ∧ (arith 0x09 0x80000000 1).regB.toInt ≠ 0 ∧
      ¬ ((arith 0x09 0x80000000 1).regA.toInt = -2147483648 ∧ (arith 0x09 0x80000000 1).regB.toInt = -1) ∧
      (arith 0x09 0x80000001 (-1)).WF ∧ (arith 0x09 0x80000001 (-1)).regB.toInt ≠ 0 ∧
      ¬ ((arith 0x09 0x80000001 (-1)).regA.toInt = -2147483648 ∧ (arith 0x09 0x80000001 (-1)).regB.toInt = -1) := by decide

theorem witness_DivideCorners :
    (arith 0x09 9 0).WF ∧ (arith 0x09 9 0).regB.toInt = 0 ∧
      (arith 0x09 0x80000000 (-1)).WF ∧ (arith 0x09 0x80000000 (-1)).regA.toInt = -2147483648 ∧
      (arith 0x09 0x80000000 (-1)).regB.toInt = -1 ∧ (arith 0x09 0x80000000 (-1)).cfg.divOverflow = .fault ∧
      (underOther (arith 0x09 0x80000000 (-1))).WF ∧ (underOther (arith 0x09 0x80000000 (-1))).cfg.divOverflow = .wrap := by
  decide

theorem witness_DivisionTable :
    (arith 0x09 7 2).WF ∧ (arith 0x09 7 2).regA.toInt = 7 ∧ (arith 0x09 7 2).regB.toInt = 2 ∧
      (arith 0x09 0x80000000 0x80000000).WF ∧ (arith 0x09 0x80000000 0x80000000).regA.toInt = -2147483648 := by decide

/-- Equal, unequal, and the two cases of the inversion. -/
theorem witness_CompareEqualCompletes :
    (arith 0x0A 5 5).WF ∧ (arith 0x0A 5 5).regA.toInt = (arith 0x0A 5 5).regB.toInt ∧
      (arith 0x0A 5 (-5)).regA.toInt ≠ (arith 0x0A 5 (-5)).regB.toInt ∧
      (arith 0x0A 1 0).regB = 0 ∧ (arith 0x0A 1 0).regA = 1 ∧ (arith 0x0A 0 0).regB = 0 ∧ (arith 0x0A 0 0).regA = 0 := by
  decide

/-- `SP` of 3 and 4097 fault, `SP` of 4 and 4096 do not; the operand may be `SP` itself (3) or the last register. -/
theorem witness_PushRule :
    (at_ 0 [7, 0, 0, 4, 0, 0] []).WF ∧ Config.default.regCount ≤ (6 : Word).toNat ∧
      (5 : Word).toNat < Config.default.regCount ∧ (3 : Word).toNat = Config.default.idxSP ∧
      ¬ (0 ≤ (pushPointer (at_ 0 [7, 0, 0, 3, 0, 0] [])).toInt ∧
        (pushPointer (at_ 0 [7, 0, 0, 3, 0, 0] [])).toInt + 4 ≤ Config.default.memSize) ∧
      (pushPointer (at_ 0 [7, 0, 0, 4, 0, 0] [])).toInt = 0 ∧
      (pushPointer (at_ 0 [7, 0, 0, 4096, 0, 0] [])).toInt + 4 = Config.default.memSize ∧
      ¬ ((pushPointer (at_ 0 [7, 0, 0, 4097, 0, 0] [])).toInt + 4 ≤ Config.default.memSize) := by decide

/-- `SP` of -4 and 4093 fault, `SP` of 0 and 4092 do not. -/
theorem witness_PopRule :
    (at_ 0 [7, 0, 0, 0, 0, 0] []).WF ∧ Config.default.regCount ≤ (6 : Word).toNat ∧
      (5 : Word).toNat < Config.default.regCount ∧ (3 : Word).toNat = Config.default.idxSP ∧
      ¬ (0 ≤ (at_ 0 [7, 0, 0, -4, 0, 0] []).regSP.toInt) ∧ (at_ 0 [7, 0, 0, 0, 0, 0] []).regSP.toInt = 0 ∧
      (at_ 0 [7, 0, 0, 4092, 0, 0] []).regSP.toInt + 4 = Config.default.memSize ∧
      ¬ ((at_ 0 [7, 0, 0, 4093, 0, 0] []).regSP.toInt + 4 ≤ Config.default.memSize) := by decide

/-- An ordinary register, `CYC`, `IP` and `SP`, from the full stack's top. -/
theorem witness_PushThenPopRestores :
    State.reset.WF ∧ 0 ≤ (pushPointer State.reset).toInt ∧
      (pushPointer State.reset).toInt + 4 ≤ State.reset.cfg.memSize ∧ (0 : Word).toNat ≠ State.reset.cfg.idxCYC ∧
      (0 : Word).toNat ≠ State.reset.cfg.idxIP ∧ (5 : Word).toNat = State.reset.cfg.idxCYC ∧
      (4 : Word).toNat = State.reset.cfg.idxIP ∧ (3 : Word).toNat = State.reset.cfg.idxSP ∧
      (5 : Word).toNat < State.reset.cfg.regCount := by decide

/-- One faulting instruction of each kind of clause. -/
theorem witness_FaultsOfEachInstruction :
    (nextOf (exec .add (underOther (arith 0x06 0x7FFFFFFF 1)))).map (·.status) = some .faulted ∧
      (nextOf (exec .divide (arith 0x09 9 0))).map (·.status) = some .faulted ∧
      (nextOf (exec (.load 6 0) State.reset)).map (·.status) = some .faulted ∧
      (nextOf (exec (.store 5 4093) State.reset)).map (·.status) = some .faulted ∧
      (nextOf (exec (.pop 0) State.reset)).map (·.status) = some .faulted := by decide

/-- Both sides hold, and both fail, somewhere. -/
theorem witness_LegalOperandsAreExactlyThoseThatComplete :
    State.reset.WF ∧ (Instr.store 5 4092).opcode ∈ [Opcode.jump, Opcode.store, Opcode.load, Opcode.loadIndirect,
      Opcode.moveRegister] ∧ (Instr.store 5 4092).wf State.reset.cfg = true ∧
      (nextOf (exec (.store 5 4092) State.reset)).map (·.status) = some .running ∧
      (nextOf (exec (.store 5 4093) State.reset)).map (·.status) = some .faulted := by decide

theorem witness_MemReadRule :
    (0 : Int) ≤ 4095 ∧ (4095 : Int) + (1 : Nat) ≤ State.reset.cfg.memSize ∧ memRead State.reset 4095 1 = .ok 0 ∧
      ¬ ((4096 : Int) + (1 : Nat) ≤ State.reset.cfg.memSize) ∧ memRead State.reset 4092 4 = .ok 0 ∧
      ¬ ((4093 : Int) + (4 : Nat) ≤ State.reset.cfg.memSize) := by decide

theorem witness_MemWriteRule :
    State.reset.WF ∧ (0 : Int) ≤ 4092 ∧ (4092 : Int) + (4 : Nat) ≤ State.reset.cfg.memSize ∧
      ¬ ((0 : Int) ≤ -1 ∧ (-1 : Int) + (1 : Nat) ≤ State.reset.cfg.memSize) := by decide

/-- A word in memory, four bytes `FF`, and the operand of a Load. -/
theorem witness_LittleEndianWords :
    State.reset.WF ∧ (0 : Int) ≤ 4092 ∧ (4092 : Int) + 4 ≤ State.reset.cfg.memSize ∧
      (∀ k, k < 4 → (put 100 [0xFF, 0xFF, 0xFF, 0xFF] State.reset).byteAt ((100 : Int).toNat + k) = 0xFF) ∧
      0 ≤ (at_ 0 zeros [0x03, 0, 0, 0, 0, 0x7B]).pc.toInt + 1 + 4 * (1 : Nat) ∧
      ∀ b, b < 4 → (at_ 0 zeros [0x03, 0, 0, 0, 0, 0x7B]).byteAt
        (((at_ 0 zeros [0x03, 0, 0, 0, 0, 0x7B]).pc.toInt + 1 + 4 * (1 : Nat)).toNat + b) = byteOfWord 123 b := by decide

theorem witness_AddressSignednessUnobservable :
    State.reset.WF ∧ (0x80000000 : Word).msb = true ∧ addressU32 4092 + 4 ≤ State.reset.cfg.memSize := by decide

/-- A storing, a pushing and another instruction answer a next state. -/
theorem witness_OnlyStoreAndPushWriteMemory :
    (nextOf (exec (.store 5 4092) State.reset)).isSome ∧ (nextOf (exec (.push 5) State.reset)).isSome ∧
      (nextOf (exec (.load 5 0) State.reset)).isSome ∧ addressU32 4092 = (4092 : Nat) := by decide

/-- Register `B` under Divide: none of the exceptions names it. -/
theorem witness_RegistersAnInstructionCanChange :
    (arith 0x09 5 3).WF ∧ (nextOf (exec .divide (arith 0x09 5 3))).isSome ∧ 1 < Config.default.regCount ∧
      1 ≠ Config.default.idxIP ∧ 1 ≠ Config.default.idxCYC ∧ Instr.divide.destination ≠ some 1 ∧
      1 ≠ Config.default.idxA ∧ 1 ≠ Config.default.idxC ∧ Instr.divide.opcode ∉ [Opcode.push, Opcode.pop] := by decide

/-- A run of one step. -/
theorem witness_ParametersNeverChange : ∃ t, Reaches State.reset t ∧ t ≠ State.reset :=
  ⟨_, .tail (.refl _) rfl, by decide⟩

theorem witness_StepKeepsWellFormed : State.reset.WF ∧ (nextOf (step State.reset)).isSome := by decide

/-- The smallest memory that holds a word, eight registers, and an index map that is not the default. -/
def tiny : Config :=
  { Config.default with
    memSize := 4, regCount := 8, idxA := 7, idxB := 6, idxC := 5, idxSP := 2, idxIP := 1, idxCYC := 0,
    regInit := [9, 8, 7, 6, 5, 4, 3, 2] }

/-- Another well-formed configuration, an image that just fits it and one that does not; for PowerOnState, LoadImageRule
and HostOperationsKeepWellFormed. -/
theorem witness_PowerOnState_and_LoadImageRule :
    tiny.WF ∧ (State.powerOn tiny).WF ∧ ([1, 2, 3, 4] : List Byte).length ≤ (State.powerOn tiny).cfg.memSize ∧
      (State.powerOn tiny).cfg.memSize < ([1, 2, 3, 4, 5] : List Byte).length ∧ (State.powerOn tiny).regSP = 7 ∧
      (State.powerOn tiny).regCYC = 0 := by decide

/-- A machine in each of the three statuses, well formed. -/
theorem witness_InitializeRule :
    State.reset.WF ∧ (State.reset.setStatus .halted).WF ∧ (State.reset.faultedWith .registerFault 2 6).WF := by decide

/-- The host's first and last register, and the indices just outside, on a machine that is FAULTED and one that is not. -/
theorem witness_HostRegisterAccess :
    State.reset.hostIndexOk 0 = true ∧ State.reset.hostIndexOk 5 = true ∧ State.reset.hostIndexOk 6 = false ∧
      State.reset.hostIndexOk (-1) = false ∧ State.reset.status ≠ .faulted ∧
      (State.reset.faultedWith .registerFault 2 6).status = .faulted := by decide

/-- The run from reset ends in two cycles' fuel; a Divide by 0 ends one in a fault. -/
theorem witness_RunsEndHaltedOrFaulted :
    (∃ t, State.reset.RunEnds t .halt) ∧ ∃ t r, (at_ 0 zeros [0x09]).RunEnds t (.fault r) :=
  ⟨⟨_, 2, rfl⟩, ⟨_, _, 2, rfl⟩⟩

/-- J4: a Jump to itself at address 40. -/
theorem witness_JumpToItselfNeverEnds :
    (at_ 40 zeros [0x01, 0x28, 0, 0, 0]).WF ∧ 0 ≤ (at_ 40 zeros [0x01, 0x28, 0, 0, 0]).pc.toInt ∧
      (at_ 40 zeros [0x01, 0x28, 0, 0, 0]).pc.toInt + 5 ≤ Config.default.memSize ∧
      ∀ k, k < 5 → (encode OpcodeMap.default (.jump (at_ 40 zeros [0x01, 0x28, 0, 0, 0]).pc))[k]? =
        some ((at_ 40 zeros [0x01, 0x28, 0, 0, 0]).byteAt ((at_ 40 zeros [0x01, 0x28, 0, 0, 0]).pc.toNat + k)) := by decide

theorem witness_ZeroByteHalts :
    (at_ 4095 zeros []).WF ∧ (4095 : Word).toInt < (at_ 4095 zeros []).cfg.memSize ∧ (at_ 4095 zeros []).byteAt 4095 = 0 := by
  decide

theorem witness_PlacedWordRunsNext :
    (at_ 4087 zeros []).WF ∧ (4087 : Word).toInt + 9 ≤ (at_ 4087 zeros []).cfg.memSize ∧
      decode OpcodeMap.default (tableBytes 72 0x00000FFC0000000102) = .ok (.store 1 4092, []) := by decide

end Sys2Proof.Tests
end

section
/-! PROOFS. The host's operations (00_scope.md R11 to R17): one equation for each case of an operation, that each keeps a
machine well formed, and the statements about them. -/

namespace Sys2Proof

/-- `REG_INIT` has a value for each register (R5). -/
theorem Config.WF.regInit_length {c : Config} (h : c.WF) : c.regInit.length = c.regCount := by
  obtain ⟨-, -, -, -, -, -, -, hinit⟩ := h
  exact hinit

end Sys2Proof

namespace Sys2Proof.Machine

/-! ## What each host operation does, case by case -/

theorem State.setStatus_self {s : State} {st : Status} (h : s.status = st) : s.setStatus st = s := by
  subst h
  rfl

section hostAccess
variable {s : State} {i : Int}

theorem State.hostIndexOk_iff : s.hostIndexOk i = true ↔ 0 ≤ i ∧ i < s.cfg.regCount := by
  simp [State.hostIndexOk]

theorem State.hostRegisterFault_of_faulted (h : s.status = .faulted) : s.hostRegisterFault i = s := by
  simp only [State.hostRegisterFault, h]

theorem State.hostRegisterFault_of_not_faulted (h : s.status ≠ .faulted) :
    s.hostRegisterFault i = s.takeFault (.registerFault i) := by
  unfold State.hostRegisterFault
  split
  · exact absurd ‹_› h
  · rfl
  · rfl

theorem State.hostRead_inRange (h : 0 ≤ i ∧ i < s.cfg.regCount) : s.hostRead i = (some (s.readReg i.toNat), s) :=
  if_pos (State.hostIndexOk_iff.2 h)

theorem State.hostRead_outOfRange (h : ¬ (0 ≤ i ∧ i < s.cfg.regCount)) :
    s.hostRead i = (none, s.hostRegisterFault i) :=
  if_neg (mt State.hostIndexOk_iff.1 h)

theorem State.hostWrite_inRange (v : Word) (h : 0 ≤ i ∧ i < s.cfg.regCount) :
    s.hostWrite i v = s.writeReg i.toNat v :=
  if_pos (State.hostIndexOk_iff.2 h)

theorem State.hostWrite_outOfRange (v : Word) (h : ¬ (0 ≤ i ∧ i < s.cfg.regCount)) :
    s.hostWrite i v = s.hostRegisterFault i :=
  if_neg (mt State.hostIndexOk_iff.1 h)

end hostAccess

/-- R212, D30: where the machine is FAULTED, `initialize()` is its two writes and leaves the status. -/
theorem State.hostInitialize_of_faulted {s : State} (h : s.status = .faulted) :
    s.hostInitialize = (s.writeReg s.cfg.idxCYC 0).setPc 0 := by
  simp only [State.hostInitialize, h]

/-- R212: where the machine is not FAULTED, `initialize()` is its two writes and leaves it RUNNING. -/
theorem State.hostInitialize_of_not_faulted {s : State} (h : s.status ≠ .faulted) :
    s.hostInitialize = ((s.writeReg s.cfg.idxCYC 0).setPc 0).setStatus .running := by
  simp only [State.hostInitialize]
  split
  · exact (State.setStatus_self ‹_›).symm
  · rfl
  · exact absurd ‹_› h

theorem State.load_ok {s : State} {image : List Byte} (h : image.length ≤ s.cfg.memSize) :
    s.load image = .ok (s.setMem (s.mem.writeBytes 0 image)) := if_pos h

theorem State.load_error {s : State} {image : List Byte} (h : s.cfg.memSize < image.length) :
    s.load image = .error .imageTooLong := if_neg (by omega)

/-! ## Each host operation keeps a machine well formed -/

theorem State.powerOn_WF {c : Config} (h : c.WF) : (State.powerOn c).WF :=
  ⟨h, by simpa using h.regInit_length, rfl, rfl, rfl⟩

theorem State.WF.hostRegisterFault {s : State} (h : s.WF) {i : Int} (hi : ¬ (0 ≤ i ∧ i < s.cfg.regCount)) :
    (s.hostRegisterFault i).WF := by
  by_cases hf : s.status = .faulted
  · rwa [State.hostRegisterFault_of_faulted hf]
  · rw [State.hostRegisterFault_of_not_faulted hf]
    exact h.takeFault hi

theorem State.WF.hostRead {s : State} (h : s.WF) (i : Int) : (s.hostRead i).2.WF := by
  by_cases hi : 0 ≤ i ∧ i < s.cfg.regCount
  · rwa [State.hostRead_inRange hi]
  · rw [State.hostRead_outOfRange hi]
    exact h.hostRegisterFault hi

theorem State.WF.hostWrite {s : State} (h : s.WF) (i : Int) (v : Word) : (s.hostWrite i v).WF := by
  by_cases hi : 0 ≤ i ∧ i < s.cfg.regCount
  · rw [State.hostWrite_inRange v hi]
    exact h.writeReg _ v
  · rw [State.hostWrite_outOfRange v hi]
    exact h.hostRegisterFault hi

theorem State.WF.hostInitialize {s : State} (h : s.WF) : s.hostInitialize.WF := by
  have ht : ((s.writeReg s.cfg.idxCYC 0).setPc 0).WF := (h.writeReg _ 0).setPc 0
  by_cases hf : s.status = .faulted
  · rwa [State.hostInitialize_of_faulted hf]
  · rw [State.hostInitialize_of_not_faulted hf]
    exact ht.setStatus hf (by decide)

/-- A run of bytes written inside memory keeps a machine well formed. -/
theorem State.WF.setMem_writeBytes {s : State} (h : s.WF) {a : Nat} {bytes : List Byte}
    (hb : a + bytes.length ≤ s.cfg.memSize) : (s.setMem (s.mem.writeBytes a bytes)).WF :=
  h.setMem (Memory.wf_writeBytes h.mem_wf ..) (Memory.below_writeBytes h.mem_below hb)

theorem State.WF.load {s t : State} (h : s.WF) {image : List Byte} (hl : s.load image = .ok t) : t.WF := by
  by_cases hn : image.length ≤ s.cfg.memSize
  · rw [State.load_ok hn] at hl
    cases hl
    exact h.setMem_writeBytes (by omega)
  · rw [State.load_error (by omega)] at hl
    cases hl

/-- What `placeAtPc` writes lies inside memory: the rest was left out (log entry 9). -/
theorem State.WF.placeAtPc {s : State} (h : s.WF) (bytes : List Byte) : (placeAtPc s bytes).WF := by
  unfold Machine.placeAtPc
  split
  · rename_i hpc
    obtain ⟨hpc0, hpcN⟩ := (s.inBounds_iff _ _).1 hpc
    have hlen := List.length_take_le (s.cfg.memSize - s.pc.toNat) bytes
    have hnat := toNat_toInt hpc0
    exact h.setMem_writeBytes (by omega)
  · exact h

/-! ## The statements -/

/-- Settles O46: each operation by its own lemma above. -/
theorem hostOperationsKeepWellFormed : Obligations.HostOperationsKeepWellFormed :=
  ⟨fun _ hc => State.powerOn_WF hc, fun _ hs =>
    ⟨hs.hostInitialize, hs.hostRead, hs.hostWrite, fun _ _ => hs.load, fun _ _ => hs.placeAtPc _⟩⟩

/-- Settles O49: the two sides of the length check, and what a run of bytes leaves inside and outside its window. -/
theorem loadImageRule : Obligations.LoadImageRule := by
  intro s image hs
  refine ⟨State.load_error, fun hn => ⟨_, State.load_ok hn, ?_, ?_, rfl, rfl, rfl, rfl, rfl⟩⟩
  · intro k hk
    have hin := Memory.get_writeBytes_inside hs.mem_wf (a := 0) hk
    rw [Nat.zero_add] at hin
    rw [State.setMem_byteAt, hin, List.getElem?_eq_getElem hk]
  · intro a ha
    exact Memory.get_writeBytes_outside _ _ (.inr (by omega))

/-- Settles O50: an index in range is one register's access; one out of range is the RegisterFault, which a FAULTED
machine does not take. -/
theorem hostRegisterAccess : Obligations.HostRegisterAccess := by
  intro s i v hs
  refine ⟨fun h0 hM => ?_, fun hi hf => ?_, fun hi hf => ?_⟩
  · have hlt : i.toNat < s.regs.length := by
      rw [hs.regs_length]
      omega
    rw [State.hostWrite_inRange v ⟨h0, hM⟩]
    exact ⟨State.hostRead_inRange ⟨h0, hM⟩, by simp [State.readReg_writeReg _ _ _ hlt],
      fun j hj => State.readReg_writeReg_other _ _ _ hj, rfl, rfl, rfl, rfl, rfl⟩
  · rw [State.hostRead_outOfRange hi, State.hostWrite_outOfRange v hi, State.hostRegisterFault_of_not_faulted hf]
    exact ⟨rfl, rfl⟩
  · rw [State.hostRead_outOfRange hi, State.hostWrite_outOfRange v hi, State.hostRegisterFault_of_faulted hf]
    exact ⟨rfl, rfl⟩

end Sys2Proof.Machine
end

section
/-! PROOFS. The state (10_state.md): what the checks of a cycle can raise, the three ways a step can end, and from them
which parts of the state a step keeps, counts or can change. -/

namespace Sys2Proof.Machine

/-! ## What the checks of a cycle raise is raisable -/

/-- An index past the register file names no register, so its RegisterFault is a true one. -/
theorem registerFault_raisable {c : Config} {f : Word} (h : c.regCount ≤ f.toNat) :
    (Cause.registerFault f.toNat).Raisable c := by
  simp only [Cause.Raisable]
  omega

theorem readU8_raises {s : State} {a : Int} {c : Cause} (h : readU8 s a = .error c) : c.Raisable s.cfg := by
  by_cases hb : 0 ≤ a ∧ a + 1 ≤ s.cfg.memSize
  · rw [readU8_ok hb] at h
    cases h
  · rw [readU8_error hb] at h
    cases h
    exact memoryFault_raisable (n := 1) (by decide) hb

/-- R112: the operand fetch raises what the read of a field raises. -/
theorem fetchOperands_raises {s : State} {op : Opcode} {c : Cause} (h : fetchOperands s op = .error c) :
    c.Raisable s.cfg := by
  unfold fetchOperands at h
  split at h
  case h_1 => cases h
  case h_2 =>
    split at h
    next hf => cases h; exact readWord_raises hf
    next => cases h
  case h_3 =>
    split at h
    next hf => cases h; exact readWord_raises hf
    next =>
      split at h
      next hf => cases h; exact readWord_raises hf
      next => cases h

/-- R111, R112: the fetch raises a fault of its reads, or the DecodeFault of a byte that is no opcode. -/
theorem fetchDecode_raises {s : State} {c : Cause} (h : fetchDecode s = .error c) : c.Raisable s.cfg := by
  unfold fetchDecode at h
  split at h
  next hb => cases h; exact readU8_raises hb
  next =>
    split at h
    next hop => cases h; exact OpcodeMap.opcodeOf_eq_none.1 hop
    next => exact fetchOperands_raises h

theorem writeA_raises {s : State} {exact : Int} {c : Cause} (h : writeA s exact = .error c) : c.Raisable s.cfg := by
  unfold writeA at h
  split at h
  next ha => cases h; exact arithResult_raises ha
  next => cases h

theorem divideBody_raises {s : State} {c : Cause} (h : divideBody s = .error c) : c.Raisable s.cfg := by
  unfold divideBody at h
  split at h
  next hd => cases h; exact divResult_raises hd
  next => cases h

/-- An `execute` raises only faults that a machine with its parameters can raise. -/
theorem bodyOf_raises {i : Instr} {s : State} {c : Cause} (h : bodyOf i s = .error c) : c.Raisable s.cfg := by
  cases i with
  | halt => cases h
  | jump _ => cases h
  | noOperation => cases h
  | compareEqual => cases h
  | add => exact writeA_raises h
  | subtract => exact writeA_raises h
  | multiply => exact writeA_raises h
  | divide => exact divideBody_raises h
  | store r addr =>
    rcases storeBody_cases (r := r) (addr := addr) (s := s) with ⟨hr, e⟩ | ⟨_, hb, e⟩ | ⟨_, _, e⟩ <;>
      cases h.symm.trans e
    · exact registerFault_raisable hr
    · exact hb
  | load r imm =>
    rcases loadBody_cases (r := r) (imm := imm) (s := s) with ⟨hr, e⟩ | ⟨_, e⟩ <;> cases h.symm.trans e
    exact registerFault_raisable hr
  | loadIndirect r addr =>
    rcases loadIndirectBody_cases (r := r) (addr := addr) (s := s) with ⟨hr, e⟩ | ⟨_, hb, e⟩ | ⟨_, _, e⟩ <;>
      cases h.symm.trans e
    · exact registerFault_raisable hr
    · exact hb
  | moveRegister rd rs =>
    rcases moveRegisterBody_cases (rd := rd) (rs := rs) (s := s) with ⟨hr, e⟩ | ⟨_, hr, e⟩ | ⟨_, _, e⟩ <;>
      cases h.symm.trans e
    · exact registerFault_raisable hr
    · exact registerFault_raisable hr
  | push r =>
    rcases pushBody_cases (r := r) (s := s) with ⟨hr, e⟩ | ⟨_, hb, e⟩ | ⟨_, _, e⟩ <;> cases h.symm.trans e
    · exact registerFault_raisable hr
    · exact hb
  | pop r =>
    rcases popBody_cases (r := r) (s := s) with ⟨hr, e⟩ | ⟨_, hb, e⟩ | ⟨_, _, e⟩ <;> cases h.symm.trans e
    · exact registerFault_raisable hr
    · exact hb

/-! ## The three ways a step can end -/

/-- A step of a running machine takes a fault that can be raised, executes Halt, or completes another instruction. -/
theorem step_outcomes {s t : State} (h : step s = .next t) :
    s.status = .running ∧
    ((∃ c, c.Raisable s.cfg ∧ fetchDecode s ≠ .ok .halt ∧ t = s.takeFault c) ∨
      (fetchDecode s = .ok .halt ∧ t = (s.mirror s.pc).setStatus .halted) ∨
      (∃ i u, fetchDecode s = .ok i ∧ i ≠ .halt ∧ bodyOf i (s.mirror (s.pcSeq i.length)) = .ok u ∧ SameFrame s u ∧
        t = u.retire (pcNextOf s i))) := by
  obtain ⟨hrun, ⟨c, hc, rfl⟩ | ⟨i, hi, he⟩⟩ := step_cases h
  · exact ⟨hrun, .inl ⟨c, fetchDecode_raises hc, by simp [hc], rfl⟩⟩
  · refine ⟨hrun, ?_⟩
    rcases exec_cases he with ⟨rfl, rfl⟩ | ⟨hne, c, hc, rfl⟩ | ⟨hne, u, hu, hf, rfl⟩
    · exact .inr (.inl ⟨hi, rfl⟩)
    · exact .inl ⟨c, bodyOf_raises (s := s.mirror _) hc, by simpa [hi] using hne, rfl⟩
    · exact .inr (.inr ⟨i, u, hi, hne, hu, hf, rfl⟩)

/-- R30: a running machine has a next state. -/
theorem step_next_of_running {s : State} (h : s.status = .running) : ∃ t, step s = .next t := by
  cases hf : fetchDecode s with
  | error c => exact ⟨_, step_of_fetch_fault h hf⟩
  | ok i =>
    obtain ⟨t, ht⟩ := exec_next i s
    exact ⟨t, (step_of_fetched h hf).trans ht⟩

/-! ## What a step keeps -/

/-- Well-formedness speaks of the memory and of what `SameFrame` keeps. -/
theorem State.WF.of_sameFrame {s u : State} (hs : s.WF) (hf : SameFrame s u) (hm : u.mem.wf = true)
    (hb : u.mem.below s.cfg.memSize = true) : u.WF := by
  obtain ⟨hcfg, -, hstatus, hfault, hlen⟩ := hf
  refine ⟨hcfg ▸ hs.config, by rw [hlen, hcfg, hs.regs_length], hm, hcfg ▸ hb, ?_⟩
  have h := hs.fault_wf
  unfold State.faultWf at h ⊢
  rwa [hfault, hstatus, hcfg]

theorem State.WF.of_writeLE {s u : State} (hs : s.WF) (hf : SameFrame s u) {a n v : Nat} (ha : a + n ≤ s.cfg.memSize)
    (hm : u.mem = s.mem.writeLE a n v) : u.WF :=
  hs.of_sameFrame hf (hm ▸ Memory.wf_writeLE hs.mem_wf a n v) (hm ▸ Memory.below_writeLE hs.mem_below ha v)

/-- An `execute` that does not raise leaves a well-formed state: its one word write lies in memory. -/
theorem bodyOf_WF {i : Instr} {s u : State} (hs : s.WF) (h : bodyOf i s = .ok u) : u.WF := by
  have hf := bodyOf_sameFrame h
  rcases bodyOf_mem h with ⟨_, addr, _, -, ⟨-, hN⟩, hm⟩ | ⟨_, _, -, ⟨h0, hN⟩, hm⟩ | ⟨-, -, hm⟩
  · exact hs.of_writeLE hf (by simp only [addressU32] at hN; omega) hm
  · exact hs.of_writeLE hf (by have := toNat_toInt h0; omega) hm
  · exact hs.of_sameFrame hf (hm ▸ hs.mem_wf) (hm ▸ hs.mem_below)

theorem step_keeps_WF {s t : State} (hs : s.WF) (h : step s = .next t) : t.WF := by
  obtain ⟨hrun, ⟨c, hc, -, rfl⟩ | ⟨-, rfl⟩ | ⟨i, u, -, -, hu, -, rfl⟩⟩ := step_outcomes h
  · exact hs.takeFault hc
  · exact (hs.mirror _).setStatus (by simp [hrun]) (by decide)
  · exact (bodyOf_WF (hs.mirror _) hu).retire _

/-- R20: a step keeps the parameters and the number of registers. -/
theorem step_keeps_parameters {s t : State} (h : step s = .next t) :
    t.cfg = s.cfg ∧ t.regs.length = s.regs.length := by
  obtain ⟨-, ⟨c, -, -, rfl⟩ | ⟨-, rfl⟩ | ⟨i, u, -, -, -, ⟨hcfg, -, -, -, hlen⟩, rfl⟩⟩ := step_outcomes h
  · exact ⟨rfl, rfl⟩
  · exact ⟨rfl, by simp⟩
  · exact ⟨hcfg, by simpa using hlen⟩

/-! ## What an instruction can change -/

/-- R25: the implicit destinations are `A`, `C` and `SP`, each of its own operations only. -/
theorem not_mem_writesImplicitly {c : Config} {i : Instr} {j : Nat}
    (hA : i.opcode ∈ [Opcode.add, Opcode.subtract, Opcode.multiply, Opcode.divide, Opcode.compareEqual] → j ≠ c.idxA)
    (hC : i = .divide → j ≠ c.idxC) (hSP : i.opcode ∈ [Opcode.push, Opcode.pop] → j ≠ c.idxSP) :
    j ∉ Instr.writesImplicitly c i := by
  cases i <;> simp_all [Instr.opcode, Instr.writesImplicitly]

/-- No instruction writes `CYC` but as the destination it names. -/
theorem idxCYC_not_mem_writesImplicitly {c : Config} (hc : c.WF) (i : Instr) :
    c.idxCYC ∉ Instr.writesImplicitly c i := by
  obtain ⟨⟨-, -, -, -, hA⟩, -, ⟨-, -, hC⟩, ⟨-, hSP⟩, -⟩ := hc.index_ne
  exact not_mem_writesImplicitly (fun _ => hA.symm) (fun _ => hC.symm) (fun _ => hSP.symm)

/-- A register that a completed instruction does not write: less the mirror write and the count, it is as before. -/
theorem readReg_of_completed {s u : State} (hs : s.WF) {i : Instr} (hu : bodyOf i (s.mirror (s.pcSeq i.length)) = .ok u)
    (pcNext : Word) {j : Nat} (hd : i.destination ≠ some j) (hj : j ∉ Instr.writesImplicitly s.cfg i) :
    (u.retire pcNext).readReg j = s.counted j (s.seen i.length j) := by
  obtain ⟨hcfg, -, -, -, hlen⟩ := (SameFrame.mirror s _).trans (bodyOf_sameFrame hu)
  exact readReg_retire_of_mirror hs hcfg hlen pcNext (bodyOf_readReg hu hd hj)

/-- The address Push stores to is the same before and after the mirror write. -/
theorem pushPointer_mirror {s : State} (hs : s.WF) (a : Word) : pushPointer (s.mirror a) = pushPointer s := by
  obtain ⟨-, -, hSP⟩ := State.operands_mirror hs a
  rw [pushPointer, hSP, pushPointer]

/-- R32: what an instruction does to memory: nothing, or the one word write of Store or Push. -/
theorem exec_mem {i : Instr} {s t : State} (hs : s.WF) (h : exec i s = .next t) :
    t.mem = s.mem ∨ (∃ r addr v, i = .store r addr ∧ t.mem = s.mem.writeLE addr.toNat 4 v) ∨
      (∃ r v, i = .push r ∧ 0 ≤ (pushPointer s).toInt ∧ t.mem = s.mem.writeLE (pushPointer s).toNat 4 v) := by
  rcases exec_cases h with ⟨-, rfl⟩ | ⟨-, c, -, rfl⟩ | ⟨-, u, hu, -, rfl⟩
  · exact .inl rfl
  · exact .inl rfl
  · rcases bodyOf_mem hu with ⟨r, addr, v, hi, -, hm⟩ | ⟨r, v, hi, ⟨h0, -⟩, hm⟩ | ⟨-, -, hm⟩
    · exact .inr (.inl ⟨r, addr, v, hi, hm⟩)
    · rw [pushPointer_mirror hs] at h0 hm
      exact .inr (.inr ⟨r, v, hi, h0, hm⟩)
    · exact .inl hm

/-! ## The cycle counter (R28, R118) -/

/-- A completed instruction that does not name `CYC` adds 1 to it. -/
theorem regCYC_of_completed {s u : State} (hs : s.WF) {i : Instr} (hu : bodyOf i (s.mirror (s.pcSeq i.length)) = .ok u)
    (pcNext : Word) (hd : i.destination ≠ some s.cfg.idxCYC) : (u.retire pcNext).regCYC = s.regCYC + 1 := by
  obtain ⟨hcfg, -⟩ := bodyOf_sameFrame hu
  obtain ⟨-, -, -, -, hIP⟩ := hs.config.index_ne
  have hreg := readReg_of_completed hs hu pcNext hd (idxCYC_not_mem_writesImplicitly hs.config i)
  rw [State.seen_of_ne hIP.symm, State.counted, if_pos rfl] at hreg
  rw [State.regCYC, State.retire_cfg, hcfg]
  exact hreg

/-- A step that leaves the machine running, of an instruction that does not name `CYC`, adds 1 to it. -/
theorem step_regCYC_of_running {s t : State} (hs : s.WF) {i : Instr} (hi : fetchDecode s = .ok i)
    (hd : i.destination ≠ some s.cfg.idxCYC) (h : step s = .next t) (ht : t.status = .running) :
    t.regCYC = s.regCYC + 1 := by
  obtain ⟨-, ⟨c, -, -, rfl⟩ | ⟨-, rfl⟩ | ⟨i', u, hi', -, hu, -, rfl⟩⟩ := step_outcomes h
  · cases ht
  · cases ht
  · cases hi.symm.trans hi'
    exact regCYC_of_completed hs hu _ hd

/-- A step that stops the machine, by Halt or by a fault, does not count. -/
theorem step_regCYC_of_stopped {s t : State} (hs : s.WF) (h : step s = .next t) (ht : t.status ≠ .running) :
    t.regCYC = s.regCYC := by
  obtain ⟨hrun, ⟨c, -, -, rfl⟩ | ⟨-, rfl⟩ | ⟨i, u, -, -, -, ⟨-, -, hstatus, -⟩, rfl⟩⟩ := step_outcomes h
  · rfl
  · obtain ⟨-, -, -, -, hIP⟩ := hs.config.index_ne
    exact State.readReg_mirror_of_ne hIP.symm s.pc
  · exact absurd (hstatus.trans hrun) ht

/-- `n` completed instructions that do not name `CYC` add `n` to it. -/
theorem regCYC_of_completesWithout {n : Nat} {s t : State} (hs : s.WF) (h : CompletesWithout s.cfg.idxCYC n s t) :
    t.regCYC = s.regCYC + BitVec.ofNat 32 n := by
  induction n generalizing s with
  | zero =>
    cases h
    simp
  | succ n ih =>
    obtain ⟨i, u, -, hi, hd, hstep, hu, hrest⟩ := h
    rw [← (step_keeps_parameters hstep).1] at hrest
    calc t.regCYC = u.regCYC + BitVec.ofNat 32 n := ih (step_keeps_WF hs hstep) hrest
      _ = s.regCYC + 1 + BitVec.ofNat 32 n := by rw [step_regCYC_of_running hs hi hd hstep hu]
      _ = s.regCYC + BitVec.ofNat 32 (n + 1) := by
        rw [BitVec.add_assoc, Nat.add_comm n 1, BitVec.ofNat_add]
        rfl

/-- R212: the host's initialisation before a run writes 0 to `CYC`. -/
theorem State.hostInitialize_regCYC {s : State} (hs : s.WF) : s.hostInitialize.regCYC = 0 := by
  obtain ⟨-, -, -, -, -, hCYC⟩ := hs.config.index_lt
  have hwrite : (s.writeReg s.cfg.idxCYC 0).readReg s.cfg.idxCYC = 0 := by
    rw [State.readReg_writeReg _ _ _ (hs.regs_length ▸ hCYC), if_pos rfl]
  by_cases hf : s.status = .faulted
  · rw [State.hostInitialize_of_faulted hf]
    exact hwrite
  · rw [State.hostInitialize_of_not_faulted hf]
    exact hwrite

/-! ## The statements -/

/-- Settles O44: a fault that is raisable, Halt's two writes, and a completed instruction each keep a machine well
formed. -/
theorem stepKeepsWellFormed : Obligations.StepKeepsWellFormed := fun _ _ => step_keeps_WF

/-- Settles O12, by induction on the number of completed instructions. -/
theorem cycleCounterCountsCompletedInstructions : Obligations.CycleCounterCountsCompletedInstructions :=
  ⟨fun _ _ _ => regCYC_of_completesWithout, fun _ _ => step_regCYC_of_stopped, fun _ => State.hostInitialize_regCYC⟩

/-- Settles O15: the status and the fault record at each of the three ends of a step. -/
theorem statusTransitions : Obligations.StatusTransitions := by
  intro s hs
  refine ⟨⟨step_next_of_running, fun ⟨_, h⟩ => (step_outcomes h).1⟩, fun t h => ?_⟩
  obtain ⟨hrun, ⟨c, -, hne, rfl⟩ | ⟨hhalt, rfl⟩ | ⟨i, u, hi, hne, -, ⟨-, -, hstatus, hfault, -⟩, rfl⟩⟩ :=
    step_outcomes h
  · simp [hne]
  · simp [hhalt, hs.no_fault (by simp [hrun])]
  · simp [hi, hne, hstatus, hfault, hrun, hs.no_fault (by simp [hrun])]

/-- Settles O41: an address outside the one word that Store or Push writes reads as before. -/
theorem onlyStoreAndPushWriteMemory : Obligations.OnlyStoreAndPushWriteMemory := by
  intro s t i hs h
  rcases exec_mem hs h with hm | ⟨r, addr, v, rfl, hm⟩ | ⟨r, v, rfl, h0, hm⟩
  · have hsame : SameMemory s t := fun a => congrArg (Memory.get · a) hm
    split
    · exact fun _ _ b _ => hsame b
    · exact fun b _ => hsame b
    · exact hsame
  · intro a ha b hb
    rw [State.byteAt, hm]
    exact Memory.get_writeLE_outside _ _ (by simp only [addressU32] at ha; omega)
  · intro b hb
    rw [State.byteAt, hm]
    exact Memory.get_writeLE_outside _ _ (by have := toNat_toInt h0; omega)

/-- Settles O42: a fault leaves every register, Halt writes `IP`, and a completed instruction only its destinations. -/
theorem registersAnInstructionCanChange : Obligations.RegistersAnInstructionCanChange := by
  intro s t i hs h j _ hIP hCYC hd hA hC hSP
  rcases exec_cases h with ⟨-, rfl⟩ | ⟨-, c, -, rfl⟩ | ⟨-, u, hu, -, rfl⟩
  · exact State.readReg_mirror_of_ne hIP s.pc
  · rfl
  · rw [readReg_of_completed hs hu _ hd (not_mem_writesImplicitly hA hC hSP), State.counted_of_ne hCYC,
      State.seen_of_ne hIP]

/-- Settles O43, by induction on the steps. -/
theorem parametersNeverChange : Obligations.ParametersNeverChange := by
  intro s t h
  induction h with
  | refl => exact ⟨rfl, rfl⟩
  | tail _ hstep ih =>
    obtain ⟨hcfg, hlen⟩ := step_keeps_parameters hstep
    exact ⟨hcfg.trans ih.1, hlen.trans ih.2⟩

/-- Settles O45: the default parameters are those of a virch machine, and power-on is well formed for every such. -/
theorem resetIsWellFormed : Obligations.ResetIsWellFormed :=
  State.powerOn_WF (by decide)

end Sys2Proof.Machine
end

section
/-! PROOFS. The memory (20_memory.md): what one checked access reads or writes, byte by byte; the byte order of a word;
that the two readings of an address agree in memory; and that a word stored over the next instruction is fetched. -/

namespace Sys2Proof

/-- R5: a memory size is an `i32`. -/
theorem Config.WF.memSize_le {c : Config} (h : c.WF) : c.memSize ≤ 2147483647 := by
  obtain ⟨-, hle, -⟩ := h
  omega

end Sys2Proof

namespace Sys2Proof.Machine

/-! ## Checked reads (R53) -/

/-- R53: a little-endian read is the sum of its bytes, each times its power of 256. -/
theorem Memory.readLE_eq_sum (m : Memory) (a n : Nat) :
    m.readLE a n = ∑ k ∈ Finset.range n, (m.get (a + k)).toNat * 256 ^ k := by
  induction n generalizing a with
  | zero => rfl
  | succ n ih =>
    rw [Memory.readLE, ih, Finset.sum_range_succ', Finset.mul_sum, Nat.add_comm]
    congr 1
    · refine Finset.sum_congr rfl fun k _ => ?_
      rw [pow_succ, show a + 1 + k = a + (k + 1) by omega]
      ring
    · simp

/-- A checked read of `n` bytes gives a number of `n` bytes. -/
theorem memRead_lt {s : State} {a : Int} {n v : Nat} (h : memRead s a n = .ok v) : v < 256 ^ n := by
  by_cases hb : 0 ≤ a ∧ a + n ≤ s.cfg.memSize
  · rw [memRead_ok hb] at h
    cases h
    exact Memory.readLE_lt ..
  · rw [memRead_error hb] at h
    cases h

theorem readU8_of_memRead {s : State} {a : Int} {v : Nat} (h : memRead s a 1 = .ok v) :
    readU8 s a = .ok (BitVec.ofNat 8 v) := by
  rw [readU8, h]

theorem readWord_of_memRead {s : State} {a : Int} {v : Nat} (h : memRead s a 4 = .ok v) :
    readWord s a = .ok (BitVec.ofNat 32 v) := by
  rw [readWord, h]

/-- R51: a word whose four bytes stand in memory is the one read there. -/
theorem readWord_of_bytes {s : State} {a : Int} {v : Word} (hin : s.WordInMemory a)
    (h : ∀ k, k < 4 → s.byteAt (a.toNat + k) = byteOfWord v k) : readWord s a = .ok v := by
  rw [readWord_ok hin, wordAt_of_bytes h]

/-! ## Checked writes (R54) -/

/-- R54: byte `k` of what a little-endian write leaves is the value shifted right by `8k`, modulo 256. -/
theorem toNat_get_writeLE {m : Memory} (hm : m.wf = true) {a n k : Nat} (v : Nat) (h : k < n) :
    ((m.writeLE a n v).get (a + k)).toNat = (v >>> (8 * k)) % 256 := by
  rw [Memory.get_writeLE_inside hm v h, BitVec.toNat_ofNat, Nat.shiftRight_eq_div_pow, Nat.pow_mul]

/-- R11: `write_u8` writes the one byte it is given. -/
theorem writeU8_eq_memWrite (s : State) (a : Int) (b : Byte) :
    writeU8 s a b = memWrite s a 1 (BitVec.ofNat 32 b.toNat) :=
  congrArg (memWrite s a 1) (BitVec.eq_of_toNat_eq (by simp))

/-! ## The two readings of an address field (R61) -/

/-- Where either reading of an address field lies in memory, the two are equal: every address of memory is an `i32`. -/
theorem addressU32_eq_addressI32 {s : State} (hs : s.WF) {f : Word}
    (h : s.WordInMemory (addressU32 f) ∨ s.WordInMemory (addressI32 f)) : addressU32 f = addressI32 f := by
  have hN := hs.config.memSize_le
  have hcond := BitVec.toInt_eq_toNat_cond f
  have hlt := f.isLt
  simp only [State.WordInMemory, addressU32, addressI32] at *
  split at hcond <;> omega

/-! ## Encoded bytes in memory and the fetch (R83, R111, R112) -/

/-- R51, R92: byte `b` of `le32`. -/
theorem getElem?_le32 (v : Word) {b : Nat} (h : b < 4) : (le32 v)[b]? = some (byteOfWord v b) := by
  have hbyte : byteOfWord v b = BitVec.ofNat 8 (v.toNat / 256 ^ b) := by
    apply BitVec.eq_of_toNat_eq
    rw [toNat_byteOfWord, BitVec.toNat_ofNat]
  rw [hbyte]
  interval_cases b <;> simp [le32]

/-- R92: in a row of encoded fields, byte `b` of field `k` stands at `4k + b`. -/
theorem getElem?_flatMap_le32 {fields : List Word} {k b : Nat} {f : Word} (hk : fields[k]? = some f) (hb : b < 4) :
    (fields.flatMap le32)[4 * k + b]? = some (byteOfWord f b) := by
  induction fields generalizing k with
  | nil => simp at hk
  | cons g fields ih =>
    have hlen := le32_length g
    rw [List.flatMap_cons]
    cases k with
    | zero =>
      obtain rfl : g = f := by simpa using hk
      rw [List.getElem?_append_left (by omega), Nat.mul_zero, Nat.zero_add, getElem?_le32 g hb]
    | succ k =>
      rw [List.getElem?_append_right (by omega), hlen, show 4 * (k + 1) + b - 4 = 4 * k + b by omega]
      exact ih (by simpa using hk)

/-- R82, R92: in an encoding, byte `b` of field `k` stands at `1 + 4k + b`. -/
theorem getElem?_encode_field (m : OpcodeMap) {i : Instr} {k b : Nat} {f : Word} (hk : i.fields[k]? = some f)
    (hb : b < 4) : (encode m i)[1 + 4 * k + b]? = some (byteOfWord f b) := by
  rw [encode, show 1 + 4 * k + b = (4 * k + b) + 1 by omega, List.getElem?_cons_succ]
  exact getElem?_flatMap_le32 hk hb

/-- R112: an operation whose fields are read as those of `i` is read as `i`. -/
theorem fetchOperands_of_fields {s : State} {i : Instr} (h : ∀ k f, i.fields[k]? = some f → fetchField s k = .ok f) :
    fetchOperands s i.opcode = .ok i := by
  cases i with
  | halt | add | subtract | multiply | divide | compareEqual | noOperation => rfl
  | jump f0 | push f0 | pop f0 =>
    have h0 := h 0 f0 rfl
    simp only [fetchOperands, Instr.opcode, Opcode.format, h0, Instr.build]
  | store f0 f1 | load f0 f1 | loadIndirect f0 f1 | moveRegister f0 f1 =>
    have h0 := h 0 f0 rfl
    have h1 := h 1 f1 rfl
    simp only [fetchOperands, Instr.opcode, Opcode.format, h0, h1, Instr.build]

/-- R111, R112: an instruction whose encoding stands at `pc`, wholly in memory, is the one fetched. -/
theorem fetchDecode_of_encoded {s : State} {i : Instr} (hs : s.cfg.WF) (h0 : 0 ≤ s.pc.toInt)
    (hN : s.pc.toInt + i.length ≤ s.cfg.memSize)
    (h : ∀ k, k < i.length → (encode s.cfg.opc i)[k]? = some (s.byteAt (s.pc.toNat + k))) :
    fetchDecode s = .ok i := by
  obtain ⟨-, -, -, -, -, -, hopc, -⟩ := hs
  have hlen := i.length_eq
  have hnat := toNat_toInt h0
  have hbyte : readU8 s s.pc.toInt = .ok (s.cfg.opc.byteOf i.opcode) := by
    have hfirst : s.cfg.opc.byteOf i.opcode = s.byteAt s.pc.toNat := by simpa [encode] using h 0 (by omega)
    rw [readU8_ok (by omega), hnat, hfirst]
  have hfields : ∀ k f, i.fields[k]? = some f → fetchField s k = .ok f := by
    intro k f hk
    have hklt : k < i.fields.length := (List.getElem?_eq_some_iff.1 hk).1
    refine readWord_of_bytes ⟨by omega, by omega⟩ fun b hb => ?_
    have henc := h (1 + 4 * k + b) (by omega)
    rw [getElem?_encode_field _ hk hb] at henc
    rw [show (s.pc.toInt + 1 + 4 * k).toNat + b = s.pc.toNat + (1 + 4 * k + b) by omega]
    exact (Option.some.inj henc).symm
  simp only [fetchDecode, hbyte, OpcodeMap.opcodeOf_byteOf hopc]
  exact fetchOperands_of_fields hfields

/-- R111: an instruction is fetched only from inside memory. -/
theorem pc_inMemory_of_fetchDecode {s : State} {i : Instr} (h : fetchDecode s = .ok i) :
    0 ≤ s.pc.toInt ∧ s.pc.toInt + 1 ≤ s.cfg.memSize := by
  by_contra hpc
  simp [fetchDecode, readU8_error hpc] at h

/-- R113: a sequential address that is an `i32` is the exact sum. -/
theorem toInt_pcSeq {s : State} {len : Nat} (h0 : 0 ≤ s.pc.toInt) (h : s.pc.toInt + len ≤ 2147483647) :
    (s.pcSeq len).toInt = s.pc.toInt + len := by
  rw [State.pcSeq, BitVec.toInt_add, BitVec.toInt_ofNat', Int.add_bmod_bmod, Int.bmod_eq_of_le] <;> omega

/-! ## Store and Push, completed (R140, R165) -/

/-- An instruction other than Halt whose `execute` makes `u` ends its cycle on `u`. -/
theorem exec_of_bodyOf_ok {i : Instr} {s u : State} (hi : i ≠ .halt)
    (hu : bodyOf i (s.mirror (s.pcSeq i.length)) = .ok u) : exec i s = .next (u.retire (pcNextOf s i)) := by
  rw [exec_eq_runInstr hi]
  exact runInstr_ok hu

theorem storeBody_ok {r addr : Word} {s : State} (hr : r.toNat < s.cfg.regCount)
    (ha : s.WordInMemory (addressU32 addr)) :
    storeBody r addr s = .ok (s.setMem (s.mem.writeLE addr.toNat 4 (s.readReg r.toNat).toNat)) := by
  rcases storeBody_cases (r := r) (addr := addr) (s := s) with ⟨hr', _⟩ | ⟨_, ha', _⟩ | ⟨_, _, hok⟩
  · omega
  · exact absurd ha ha'
  · exact hok

theorem pushBody_ok {r : Word} {s : State} (hr : r.toNat < s.cfg.regCount)
    (ha : s.WordInMemory (pushPointer s).toInt) :
    pushBody r s = .ok ((s.writeReg s.cfg.idxSP (pushPointer s)).setMem (s.mem.writeLE (pushPointer s).toNat 4
      ((s.writeReg s.cfg.idxSP (pushPointer s)).readReg r.toNat).toNat)) := by
  rcases pushBody_cases (r := r) (s := s) with ⟨hr', _⟩ | ⟨_, ha', _⟩ | ⟨_, _, hok⟩
  · omega
  · exact absurd ha ha'
  · exact hok

/-- R140: a Store with a legal register and address completes, and stores the register as `execute` sees it. -/
theorem exec_store_completes {s : State} (hs : s.WF) {r addr : Word} (hr : r.toNat < s.cfg.regCount)
    (ha : s.WordInMemory (addressU32 addr)) :
    ∃ t, exec (.store r addr) s = .next t ∧ CompletesTo s t 9 (s.pc + 9) [] ∧
      StoresWord s t addr.toNat (s.seen 9 r.toNat) := by
  have hread : (s.mirror (s.pcSeq 9)).readReg r.toNat = s.seen 9 r.toNat := State.readReg_mirror hs .store _
  have hbody := storeBody_ok (s := s.mirror (s.pcSeq 9)) hr ha
  rw [hread] at hbody
  refine ⟨_, exec_of_bodyOf_ok (by simp) hbody, ?_, storesWord_writeLE hs.mem_wf _ _⟩
  exact completesTo_retire hs (op := .store) _ rfl rfl rfl (by simp) fun _ _ => rfl

/-- R165, D14: a Push with a legal register and a stack address in memory completes, and stores the register as `execute`
sees it, which for `SP` is its decremented value. -/
theorem exec_push_completes {s : State} (hs : s.WF) {r : Word} (hr : r.toNat < s.cfg.regCount)
    (ha : s.WordInMemory (pushPointer s).toInt) :
    ∃ t, exec (.push r) s = .next t ∧ CompletesTo s t 5 (s.pc + 5) [s.cfg.idxSP] ∧
      StoresWord s t (pushPointer s).toNat (if r.toNat = s.cfg.idxSP then s.regSP - 4 else s.seen 5 r.toNat) := by
  obtain ⟨-, -, -, hSP, -, -⟩ := hs.config.index_lt
  have hptr := pushPointer_mirror hs (s.pcSeq 5)
  have hread : ((s.mirror (s.pcSeq 5)).writeReg s.cfg.idxSP (pushPointer s)).readReg r.toNat =
      if r.toNat = s.cfg.idxSP then s.regSP - 4 else s.seen 5 r.toNat := by
    rw [State.readReg_writeReg _ _ _ (by simpa [hs.regs_length] using hSP)]
    exact congrArg _ (State.readReg_mirror hs .push r.toNat)
  have hbody := pushBody_ok (s := s.mirror (s.pcSeq 5)) hr (hptr ▸ ha)
  rw [hptr, State.mirror_cfg, hread] at hbody
  refine ⟨_, exec_of_bodyOf_ok (by simp) hbody, ?_, storesWord_writeLE hs.mem_wf _ _⟩
  refine completesTo_retire hs (op := .push) _ rfl rfl rfl (by simp) fun j hj => ?_
  exact State.readReg_writeReg_other _ _ _ (by simpa using hj)

/-! ## A word stored over the next instruction (R65) -/

/-- R59: after a word is stored at `a`, an address reads the word's byte inside the window and the old byte outside. -/
theorem StoresWord.byteAt {s t : State} {a : Nat} {v : Word} (h : StoresWord s t a v) (b : Nat) :
    t.byteAt b = if a ≤ b ∧ b < a + 4 then byteOfWord v (b - a) else s.byteAt b := by
  obtain ⟨hin, hout⟩ := h
  split
  · have hb := hin (b - a) (by omega)
    rwa [show a + (b - a) = b by omega] at hb
  · exact hout b (by omega)

/-- The step after a completed writer runs the instruction that the stored word and the old bytes spell there. -/
theorem step_runs_overlaid {s t : State} {i : Instr} {len a : Nat} {v : Word} {dests : List Nat} (hs : s.WF)
    (hrun : s.status = .running) (ht : CompletesTo s t len (s.pcSeq len) dests) (hv : StoresWord s t a v)
    (h0 : 0 ≤ s.pc.toInt) (hN : s.pc.toInt + len + i.length ≤ s.cfg.memSize)
    (h : ∀ k, k < i.length → (encode s.cfg.opc i)[k]? =
      some (if a ≤ s.pc.toNat + len + k ∧ s.pc.toNat + len + k < a + 4
        then byteOfWord v (s.pc.toNat + len + k - a) else s.byteAt (s.pc.toNat + len + k))) :
    step t = exec i t := by
  obtain ⟨hpc, hstatus, -, hcfg, -, -⟩ := ht
  have hmax := hs.config.memSize_le
  have hpcInt : t.pc.toInt = s.pc.toInt + len := by
    rw [hpc, toInt_pcSeq h0 (by omega)]
  have hpcNat : t.pc.toNat = s.pc.toNat + len := by
    have hs0 := toNat_toInt h0
    have ht0 := toNat_toInt (a := t.pc) (by omega)
    omega
  refine step_of_fetched (hstatus.trans hrun) (fetchDecode_of_encoded ?_ (by omega) (by rw [hcfg]; omega) fun k hk => ?_)
  · rw [hcfg]
    exact hs.config
  · rw [hcfg, hpcNat, hv.byteAt, h k hk]

/-! ## The statements -/

/-- Settles O37: the sum of R53 on the legal side of the check, and each reading from the number read. -/
theorem memReadRule : Obligations.MemReadRule := by
  intro s a n _
  refine ⟨memRead_error, fun h0 hN => ⟨?_, fun _ => memRead_lt, fun v hv => ?_, fun v hv => ?_⟩⟩
  · rw [memRead_ok ⟨h0, hN⟩, Memory.readLE_eq_sum]
    rfl
  · exact ⟨readU8_of_memRead hv, Nat.mod_eq_of_lt (memRead_lt hv)⟩
  · exact ⟨_, readWord_of_memRead hv, Nat.mod_eq_of_lt (memRead_lt hv), BitVec.toInt_ofNat ..⟩

/-- Settles O38: a legal write is one little-endian run of bytes and no other change. -/
theorem memWriteRule : Obligations.MemWriteRule := by
  intro s a n v hs _
  refine ⟨fun _ => rfl, writeU8_eq_memWrite s a, memWrite_error v, fun h0 hN =>
    ⟨_, memWrite_ok v ⟨h0, hN⟩, ?_, ?_, rfl, rfl, rfl, rfl, rfl⟩⟩
  · exact fun k hk => toNat_get_writeLE hs.mem_wf _ hk
  · exact fun b hb => Memory.get_writeLE_outside _ _ hb

/-- Settles O39: the bytes of a word fix what is read where they stand, whether a store or the program put them there. -/
theorem littleEndianWords : Obligations.LittleEndianWords := by
  refine ⟨fun s a v hs ha => ?_, fun s a ha h => ?_, fun _ _ _ => readWord_of_bytes⟩
  · have hstored := storesWord_writeLE hs.mem_wf a.toNat v
    exact ⟨_, writeWord_ok v ha, hstored, readWord_of_bytes ha hstored.1⟩
  · have hff : ∀ k, k < 4 → byteOfWord 0xFFFFFFFF k = 0xFF := by decide
    exact ⟨0xFFFFFFFF, readWord_of_bytes ha fun k hk => (h k hk).trans (hff k hk).symm, by decide, by decide⟩

/-- Settles O40: in memory the two readings are equal, and bit 31 makes the signed one negative. -/
theorem addressSignednessUnobservable : Obligations.AddressSignednessUnobservable := by
  intro s f hs
  have hiff : s.WordInMemory (addressU32 f) ↔ s.WordInMemory (addressI32 f) :=
    ⟨fun h => addressU32_eq_addressI32 hs (.inl h) ▸ h, fun h => addressU32_eq_addressI32 hs (.inr h) ▸ h⟩
  refine ⟨hiff, fun hmsb => ?_, fun h => addressU32_eq_addressI32 hs (.inl h)⟩
  have hneg : ¬ s.WordInMemory (addressI32 f) := fun ⟨h0, _⟩ => (BitVec.toInt_neg_of_msb_true hmsb).not_ge h0
  exact ⟨mt hiff.1 hneg, hneg⟩

/-- Settles O24: a Store or Push that completes leaves its word in memory and `pc` on the bytes that it overlays. -/
theorem storedWordIsTheNextInstruction : Obligations.StoredWordIsTheNextInstruction := by
  intro s writer i a v hs hrun hfetch hwriter ha hN henc
  obtain ⟨h0, -⟩ := pc_inMemory_of_fetchDecode hfetch
  have hdone : ∃ t dests, exec writer s = .next t ∧ CompletesTo s t writer.length (s.pcSeq writer.length) dests ∧
      StoresWord s t a v := by
    rcases hwriter with ⟨r, addr, rfl, hr, haddr, rfl⟩ | ⟨r, rfl, hr, haddr, rfl⟩
    · obtain rfl : addr.toNat = a := by simpa [addressU32] using haddr
      obtain ⟨t, ht, hframe, hstored⟩ := exec_store_completes hs hr ha
      exact ⟨t, _, ht, hframe, hstored⟩
    · rw [← haddr] at ha
      obtain rfl : (pushPointer s).toNat = a := by
        have hsp := toNat_toInt ha.1
        omega
      obtain ⟨t, ht, hframe, hstored⟩ := exec_push_completes hs hr ha
      exact ⟨t, _, ht, hframe, hstored⟩
  obtain ⟨t, dests, ht, hframe, hstored⟩ := hdone
  have hnext := step_runs_overlaid hs hrun hframe hstored h0 hN henc
  obtain ⟨hpc, hstatus, -⟩ := hframe
  exact ⟨t, (step_of_fetched hrun hfetch).trans ht, hstatus.trans hrun, hpc, hnext⟩

end Sys2Proof.Machine
end

section
/-! PROOFS. The encoding (30_encoding.md): that decoding and encoding invert each other, the bytes of every instruction,
what each opcode byte spells, that the fetch unit is the decoder on the bytes at `pc`, and which operands are legal. -/

namespace Sys2Proof

/-! ## Decode after encode, and encode after decode (R80, R92) -/

/-- R82: the fields of an instruction are those its format has. -/
theorem Instr.fields_build (op : Opcode) (f0 f1 : Word) :
    (Instr.build op f0 f1).fields = [f0, f1].take op.format.fieldCount := by
  cases op <;> rfl

theorem decode_encode {m : OpcodeMap} (h : m.toList.Nodup) (i : Instr) (rest : List Byte) :
    decode m (encode m i ++ rest) = .ok (i, rest) := by
  have hop := OpcodeMap.opcodeOf_byteOf h i.opcode
  rw [encode, List.cons_append]
  simp only [decode, hop]
  cases i with
  | halt | add | subtract | multiply | divide | compareEqual | noOperation => rfl
  | jump f0 | push f0 | pop f0 =>
    have h0 : takeWord ([f0].flatMap le32 ++ rest) = some (f0, rest) := takeWord_le32 f0 rest
    simp only [Instr.opcode, Opcode.format, Instr.fields, h0, Instr.build]
  | store f0 f1 | load f0 f1 | loadIndirect f0 f1 | moveRegister f0 f1 =>
    have h0 : takeWord ([f0, f1].flatMap le32 ++ rest) = some (f0, le32 f1 ++ rest) := takeWord_le32 f0 _
    simp only [Instr.opcode, Opcode.format, Instr.fields, h0, takeWord_le32, Instr.build]

/-- What the decoder reads as an instruction: a byte that spells its operation, then its fields, each in four bytes. -/
theorem decode_ok {m : OpcodeMap} {bytes rest : List Byte} {i : Instr} (h : decode m bytes = .ok (i, rest)) :
    ∃ b, m.opcodeOf b = some i.opcode ∧ bytes = b :: (i.fields.flatMap le32 ++ rest) := by
  cases bytes with
  | nil => cases h
  | cons b bytes =>
    refine ⟨b, ?_⟩
    simp only [decode] at h
    split at h
    next => cases h
    next op hop =>
      split at h
      next hf =>
        cases h
        simp [hop, Instr.build_opcode, Instr.fields_build, hf, Format.fieldCount]
      next hf =>
        split at h
        next => cases h
        next f0 rest0 h0 =>
          cases h
          simp [hop, Instr.build_opcode, Instr.fields_build, hf, Format.fieldCount, takeWord_eq_some h0]
      next hf =>
        split at h
        next => cases h
        next f0 rest0 h0 =>
          split at h
          next => cases h
          next f1 rest1 h1 =>
            cases h
            simp [hop, Instr.build_opcode, Instr.fields_build, hf, Format.fieldCount, takeWord_eq_some h0,
              takeWord_eq_some h1]

/-- R88: a byte that spells no operation is rejected by name, whatever follows. -/
theorem decode_illegalOpcode {m : OpcodeMap} {b : Byte} (h : m.opcodeOf b = none) (bytes : List Byte) :
    decode m (b :: bytes) = .error (.illegalOpcode b) := by
  simp only [decode, h]

/-! ## The adopted opcode bytes (R86, D1) -/

theorem OpcodeMap.default_nodup : OpcodeMap.default.toList.Nodup := by
  decide

theorem OpcodeMap.mem_default {b : Byte} : b ∈ OpcodeMap.default.toList ↔ b.toNat ≤ 13 := by
  have hrange : OpcodeMap.default.toList = (List.range 14).map (BitVec.ofNat 8) := rfl
  rw [hrange, List.mem_map]
  constructor
  · rintro ⟨k, hk, rfl⟩
    have := List.mem_range.1 hk
    rw [BitVec.toNat_ofNat]
    omega
  · exact fun hb => ⟨b.toNat, List.mem_range.2 (by omega), by simp⟩

/-- R86: the row of an operation is its byte. -/
theorem Opcode.getElem?_all_default (op : Opcode) : Opcode.all[(OpcodeMap.default.byteOf op).toNat]? = some op := by
  cases op <;> rfl

theorem OpcodeMap.default_opcodeOf_eq_none {b : Byte} (h : 14 ≤ b.toNat) : OpcodeMap.default.opcodeOf b = none :=
  OpcodeMap.opcodeOf_eq_none.2 (mt OpcodeMap.mem_default.1 (by omega))

theorem OpcodeMap.default_opcodeOf (b : Byte) :
    OpcodeMap.default.opcodeOf b = if b.toNat ≤ 13 then Opcode.all[b.toNat]? else none := by
  split
  next hb =>
    have hmem := OpcodeMap.mem_default.2 hb
    rw [OpcodeMap.toList_eq_map] at hmem
    obtain ⟨op, -, rfl⟩ := List.mem_map.1 hmem
    rw [OpcodeMap.opcodeOf_byteOf OpcodeMap.default_nodup, op.getElem?_all_default]
  next hb => exact OpcodeMap.default_opcodeOf_eq_none (by omega)

end Sys2Proof

namespace Sys2Proof.Machine

/-! ## The bytes of an encoding (R51, R92) -/

theorem le32_eq_bytesOfWord (v : Word) : le32 v = bytesOfWord v := by
  refine List.ext_getElem? fun b => ?_
  by_cases hb : b < 4
  · rw [getElem?_le32 v hb]
    interval_cases b <;> rfl
  · rw [List.getElem?_eq_none (by rw [le32_length]; omega), List.getElem?_eq_none (by simp [bytesOfWord]; omega)]

theorem encode_eq_bytesOfWord (m : OpcodeMap) (i : Instr) :
    encode m i = m.byteOf i.opcode :: i.fields.flatMap bytesOfWord := by
  rw [encode, funext le32_eq_bytesOfWord]

/-! ## The fetch unit is the decoder on the bytes at `pc` (R83, R111, R112) -/

/-- The `n` bytes of memory from address `a` up. -/
def State.bytesFrom (s : State) (a n : Nat) : List Byte := (List.range n).map (fun k => s.byteAt (a + k))

theorem State.bytesFrom_succ (s : State) (a n : Nat) :
    s.bytesFrom a (n + 1) = s.byteAt a :: s.bytesFrom (a + 1) n := by
  simp only [State.bytesFrom, List.range_succ_eq_map, List.map_cons, List.map_map, Nat.add_zero]
  refine congrArg _ (List.map_congr_left fun k _ => ?_)
  rw [Function.comp_apply, Nat.succ_eq_add_one, Nat.add_assoc, Nat.add_comm 1 k]

theorem State.wordOfBytes_byteAt (s : State) (a : Nat) :
    wordOfBytes (s.byteAt a) (s.byteAt (a + 1)) (s.byteAt (a + 2)) (s.byteAt (a + 3)) = s.wordAt a := by
  apply BitVec.eq_of_toNat_eq
  rw [toNat_wordOfBytes, toNat_wordAt, readLE_four]
  rfl

theorem State.takeWord_bytesFrom (s : State) (a : Nat) {n : Nat} (h : 4 ≤ n) :
    takeWord (s.bytesFrom a n) = some (s.wordAt a, s.bytesFrom (a + 4) (n - 4)) := by
  obtain ⟨n, rfl⟩ := Nat.exists_eq_add_of_le' h
  rw [State.bytesFrom_succ, State.bytesFrom_succ, State.bytesFrom_succ, State.bytesFrom_succ, takeWord,
    State.wordOfBytes_byteAt]
  rfl

theorem State.takeWord_bytesFrom_of_lt (s : State) (a : Nat) {n : Nat} (h : n < 4) :
    takeWord (s.bytesFrom a n) = none :=
  takeWord_eq_none.2 (by simpa [State.bytesFrom] using h)

/-- The bytes at a `pc` inside memory: the opcode byte and up to eight more. -/
theorem bytesAtPc_of_inMemory {s : State} (h : 0 ≤ s.pc.toInt ∧ s.pc.toInt + 1 ≤ s.cfg.memSize) :
    bytesAtPc s = s.byteAt s.pc.toNat :: s.bytesFrom (s.pc.toNat + 1) (min 8 (s.cfg.memSize - s.pc.toNat - 1)) := by
  have hnat := toNat_toInt h.1
  rw [bytesAtPc, if_pos ((s.inBounds_iff _ _).2 h), ← State.bytesFrom_succ, State.bytesFrom, maxLength]
  congr 2
  omega

theorem bytesAtPc_of_not_inMemory {s : State} (h : ¬ (0 ≤ s.pc.toInt ∧ s.pc.toInt + 1 ≤ s.cfg.memSize)) :
    bytesAtPc s = [] := if_neg (mt (s.inBounds_iff _ _).1 h)

/-- Field `k` through `MemRead` and as the first word of the `n` bytes at hand, where a word fits in those exactly if it
fits in memory: both read the word that stands there, or neither reads one. -/
theorem fetchField_cases {s : State} {k n : Nat} (h0 : 0 ≤ s.pc.toInt)
    (hn : 4 ≤ n ↔ s.pc.toInt + 1 + 4 * k + 4 ≤ s.cfg.memSize) :
    (fetchField s k = .error (.memoryFault (s.pc.toInt + 1 + 4 * k)) ∧
      takeWord (s.bytesFrom (s.pc.toNat + 1 + 4 * k) n) = none) ∨
    (∃ f, fetchField s k = .ok f ∧ takeWord (s.bytesFrom (s.pc.toNat + 1 + 4 * k) n) =
      some (f, s.bytesFrom (s.pc.toNat + 1 + 4 * k + 4) (n - 4)) ∧ 4 ≤ n) := by
  have hnat := toNat_toInt h0
  by_cases h4 : 4 ≤ n
  · have ha : (s.pc.toInt + 1 + 4 * k).toNat = s.pc.toNat + 1 + 4 * k := by omega
    exact .inr ⟨_, readWord_ok ⟨by omega, hn.1 h4⟩, ha ▸ s.takeWord_bytesFrom _ h4, h4⟩
  · exact .inl ⟨readWord_error fun hin => h4 (hn.2 hin.2), s.takeWord_bytesFrom_of_lt _ (by omega)⟩

/-- What the fetch unit raises where the decoder reads no instruction from the bytes at `pc` (R181, R183; D5, D11). -/
def fetchCause (s : State) : DecodeError → Cause
  | .noBytes => .memoryFault s.pc.toInt
  | .illegalOpcode b => .decodeFault b
  | .truncated k => .memoryFault (s.pc.toInt + 1 + 4 * k)

theorem fetchCause_injective (s : State) : Function.Injective (fetchCause s) := by
  intro e e' h
  cases e <;> cases e' <;> simp only [fetchCause, Cause.memoryFault.injEq, Cause.decodeFault.injEq, reduceCtorEq] at h
  case noBytes.noBytes => rfl
  case illegalOpcode.illegalOpcode => rw [h]
  case truncated.truncated => exact congrArg _ (by omega)
  all_goals omega

/-- The fetch unit answers what the decoder answers on the bytes at `pc`, its errors read as faults. -/
theorem fetchDecode_eq_decode (s : State) :
    fetchDecode s = ((decode s.cfg.opc (bytesAtPc s)).map Prod.fst).mapError (fetchCause s) := by
  by_cases hpc : 0 ≤ s.pc.toInt ∧ s.pc.toInt + 1 ≤ s.cfg.memSize
  · have hnat := toNat_toInt hpc.1
    rw [bytesAtPc_of_inMemory hpc, fetchDecode, readU8_ok hpc, hnat]
    cases hop : s.cfg.opc.opcodeOf (s.byteAt s.pc.toNat) with
    | none => simp only [hop, decode_illegalOpcode hop]; rfl
    | some op =>
      have hfield0 := fetchField_cases (k := 0) (n := min 8 (s.cfg.memSize - s.pc.toNat - 1)) hpc.1 (by omega)
      simp only [decode, hop, fetchOperands]
      cases op.format with
      | f0 => rfl
      | f1 =>
        rcases hfield0 with ⟨hf0, ht0⟩ | ⟨f0, hf0, ht0, -⟩
        · simp only [hf0, ht0]; rfl
        · simp only [hf0, ht0]; rfl
      | f2 =>
        rcases hfield0 with ⟨hf0, ht0⟩ | ⟨f0, hf0, ht0, h4⟩
        · simp only [hf0, ht0]; rfl
        · rcases fetchField_cases (k := 1) (n := min 8 (s.cfg.memSize - s.pc.toNat - 1) - 4) hpc.1 (by omega) with
            ⟨hf1, ht1⟩ | ⟨f1, hf1, ht1, -⟩
          · simp only [hf0, ht0, hf1, ht1]; rfl
          · simp only [hf0, ht0, hf1, ht1]; rfl
  · rw [bytesAtPc_of_not_inMemory hpc, fetchDecode, readU8_error hpc]
    rfl

theorem fetchDecode_eq_ok_iff {s : State} {i : Instr} :
    fetchDecode s = .ok i ↔ ∃ rest, decode s.cfg.opc (bytesAtPc s) = .ok (i, rest) := by
  rw [fetchDecode_eq_decode]
  cases decode s.cfg.opc (bytesAtPc s) with
  | error e => simp [Except.map, Except.mapError]
  | ok p => simp [Except.map, Except.mapError, Prod.ext_iff]

theorem fetchDecode_eq_error_iff {s : State} (e : DecodeError) :
    fetchDecode s = .error (fetchCause s e) ↔ decode s.cfg.opc (bytesAtPc s) = .error e := by
  rw [fetchDecode_eq_decode]
  cases decode s.cfg.opc (bytesAtPc s) with
  | error e' => simp [Except.map, Except.mapError, (fetchCause_injective s).eq_iff]
  | ok p => simp [Except.map, Except.mapError]

/-- R90 (D1): a 0 byte at a `pc` inside memory is fetched as Halt. -/
theorem fetchDecode_zeroByte {s : State} (hs : s.WF) (hopc : s.cfg.opc = OpcodeMap.default) (h0 : 0 ≤ s.pc.toInt)
    (hN : s.pc.toInt < s.cfg.memSize) (hbyte : s.byteAt s.pc.toNat = 0) : fetchDecode s = .ok .halt := by
  have hlen : Instr.halt.length = 1 := rfl
  refine fetchDecode_of_encoded hs.config h0 (by omega) fun k hk => ?_
  obtain rfl : k = 0 := by omega
  rw [hopc, Nat.add_zero, hbyte]
  rfl

/-! ## Legal operands (R84) -/

theorem legalRegister_iff {c : Config} {r : Word} : legalRegister c r = true ↔ r.toNat < c.regCount := by
  simp [legalRegister]

theorem legalAddressU32_iff {s : State} {a : Word} :
    legalAddressU32 s.cfg a = true ↔ s.WordInMemory (addressU32 a) := by
  simp only [legalAddressU32, State.WordInMemory, addressU32, decide_eq_true_iff]
  omega

theorem legalAddressI32_iff {s : State} {a : Word} : legalAddressI32 s.cfg a = true ↔ s.WordInMemory a.toInt := by
  simp [legalAddressI32, State.WordInMemory]

/-- A running machine stays running through an instruction other than Halt exactly when its `execute` raises nothing. -/
theorem exec_running_iff {i : Instr} {s : State} (hi : i ≠ .halt) (hrun : s.status = .running) :
    (∃ t, exec i s = .next t ∧ t.status = .running) ↔
      ∃ u, bodyOf i (s.mirror (s.pcSeq i.length)) = .ok u := by
  constructor
  · rintro ⟨t, ht, htrun⟩
    rcases exec_cases ht with ⟨hhalt, -⟩ | ⟨-, c, -, rfl⟩ | ⟨-, u, hu, -, -⟩
    · exact absurd hhalt hi
    · cases htrun
    · exact ⟨u, hu⟩
  · rintro ⟨u, hu⟩
    obtain ⟨-, -, hstatus, -⟩ := bodyOf_sameFrame hu
    exact ⟨_, exec_of_bodyOf_ok hi hu, hstatus.trans hrun⟩

/-- R84: where only operand fields are checked, `execute` raises nothing exactly when they are legal. -/
theorem bodyOf_ok_iff_wf {i : Instr} {s : State}
    (hi : i.opcode ∈ [Opcode.jump, Opcode.store, Opcode.load, Opcode.loadIndirect, Opcode.moveRegister]) :
    (∃ u, bodyOf i s = .ok u) ↔ i.wf s.cfg = true := by
  cases i with
  | halt | add | subtract | multiply | divide | compareEqual | noOperation | push | pop =>
    simp [Instr.opcode] at hi
  | jump target => simp [bodyOf, Instr.wf]
  | store r addr =>
    rw [Instr.wf, Bool.and_eq_true, legalRegister_iff, legalAddressU32_iff, bodyOf]
    rcases storeBody_cases (r := r) (addr := addr) (s := s) with ⟨hr, e⟩ | ⟨hr, ha, e⟩ | ⟨hr, ha, e⟩
    · simp [e, hr.not_gt]
    · simp [e, ha]
    · simp [e, hr, ha]
  | load r imm =>
    rw [Instr.wf, legalRegister_iff, bodyOf]
    rcases loadBody_cases (r := r) (imm := imm) (s := s) with ⟨hr, e⟩ | ⟨hr, e⟩
    · simp [e, hr]
    · simp [e, hr]
  | loadIndirect r addr =>
    rw [Instr.wf, Bool.and_eq_true, legalRegister_iff, legalAddressI32_iff, bodyOf]
    rcases loadIndirectBody_cases (r := r) (addr := addr) (s := s) with ⟨hr, e⟩ | ⟨hr, ha, e⟩ | ⟨hr, ha, e⟩
    · simp [e, hr.not_gt]
    · simp [e, ha]
    · simp [e, hr, ha]
  | moveRegister rd rs =>
    rw [Instr.wf, Bool.and_eq_true, legalRegister_iff, legalRegister_iff, bodyOf]
    rcases moveRegisterBody_cases (rd := rd) (rs := rs) (s := s) with ⟨hd, e⟩ | ⟨hd, hr, e⟩ | ⟨hd, hr, e⟩
    · simp [e, hd.not_gt]
    · simp [e, hr.not_gt]
    · simp [e, hd, hr]

/-! ## The statements -/

/-- Settles O2: the opcode byte spells the operation, and each field is taken back from its four bytes. -/
theorem decodeInvertsEncode : Obligations.DecodeInvertsEncode := fun _ => decode_encode

/-- Settles O3: the byte that spells the operation is the operation's own. -/
theorem encodeInvertsDecode : Obligations.EncodeInvertsDecode := by
  intro m bytes i rest h
  obtain ⟨b, hop, rfl⟩ := decode_ok h
  rw [encode, OpcodeMap.byteOf_of_opcodeOf hop, List.cons_append]

/-- Settles O5: the adopted bytes are the numbers of the rows, 0 to 13. -/
theorem opcodeByteDecidesTheInstruction : Obligations.OpcodeByteDecidesTheInstruction := by
  refine ⟨OpcodeMap.default_opcodeOf, fun b rest _ i r h => ?_, fun b rest hb => ?_⟩
  · obtain ⟨b', hop, hbytes⟩ := decode_ok h
    obtain ⟨rfl, -⟩ := List.cons.inj hbytes
    exact hop
  · exact decode_illegalOpcode (OpcodeMap.default_opcodeOf_eq_none hb) rest

/-- Settles O7: the fetch unit's answer is the decoder's, and each decode error is a fault of its own. -/
theorem fetchUnitAgreesWithDecoder : Obligations.FetchUnitAgreesWithDecoder := fun _ _ =>
  ⟨fun _ => fetchDecode_eq_ok_iff, fetchDecode_eq_error_iff .noBytes,
    fun b => fetchDecode_eq_error_iff (.illegalOpcode b), fun k => fetchDecode_eq_error_iff (.truncated k)⟩

/-- Settles O36: completion is an `execute` that raises nothing, and that is legality of the operands. -/
theorem legalOperandsAreExactlyThoseThatComplete : Obligations.LegalOperandsAreExactlyThoseThatComplete := by
  intro s i _ hrun hi
  have hne : i ≠ .halt := by
    rintro rfl
    simp [Instr.opcode] at hi
  exact (exec_running_iff hne hrun).trans (bodyOf_ok_iff_wf hi)

/-- Settles O1, by evaluating the decoder on each word. -/
theorem writtenOutWordsDecode : Obligations.WrittenOutWordsDecode :=
  ⟨rfl, rfl, rfl, rfl, rfl, rfl, rfl, rfl, rfl, rfl, rfl, rfl, rfl, rfl, rfl, rfl, rfl⟩

/-- Settles O4: the opcode byte, and `le32` of a field as its four bytes. -/
theorem encodingLayout : Obligations.EncodingLayout := by
  have h := encode_eq_bytesOfWord OpcodeMap.default
  exact ⟨h .halt, fun t => h (.jump t), fun r a => h (.store r a), fun r v => h (.load r v),
    fun r a => h (.loadIndirect r a), fun d s => h (.moveRegister d s), h .add, h .subtract, h .multiply, h .divide,
    h .compareEqual, h .noOperation, fun r => h (.push r), fun r => h (.pop r)⟩

/-- Settles O53: a 0 byte is fetched as Halt, and at reset the byte at address 0 is 0. -/
theorem zeroByteHalts : Obligations.ZeroByteHalts := by
  have hhalt : ∀ s : State, s.WF → s.cfg.opc = OpcodeMap.default → s.status = .running → 0 ≤ s.pc.toInt →
      s.pc.toInt < s.cfg.memSize → s.byteAt s.pc.toNat = 0 → step s = exec .halt s :=
    fun _ hs hopc hrun h0 hN hbyte => step_of_fetched hrun (fetchDecode_zeroByte hs hopc h0 hN hbyte)
  exact ⟨hhalt, _, hhalt State.reset resetIsWellFormed rfl rfl (by decide) (by decide) rfl, rfl, rfl, rfl⟩

end Sys2Proof.Machine
end

section
/-! PROOFS. The fetch, decode and execute cycle (40_fetch_decode_cycle.md): that a fetched instruction lies in memory, what a
placed word makes of the fetch, where an instruction leaves `pc` and the mirror register, and how a cycle and a run end. -/

namespace Sys2Proof.Machine

/-! ## The fetch (R22, R111, R112) -/

/-- At most as many bytes stand from a `pc` inside memory as memory has left. -/
theorem length_bytesAtPc_le {s : State} (h : 0 ≤ s.pc.toInt ∧ s.pc.toInt + 1 ≤ s.cfg.memSize) :
    s.pc.toInt + (bytesAtPc s).length ≤ s.cfg.memSize := by
  have hnat := toNat_toInt h.1
  rw [bytesAtPc_of_inMemory h, List.length_cons, State.bytesFrom, List.length_map, List.length_range]
  omega

/-- R112: an instruction is fetched only where the whole of it lies in memory. -/
theorem fetchDecode_inMemory {s : State} {i : Instr} (h : fetchDecode s = .ok i) :
    0 ≤ s.pc.toInt ∧ s.pc.toInt + i.length ≤ s.cfg.memSize := by
  have hpc := pc_inMemory_of_fetchDecode h
  have hbytes := length_bytesAtPc_le hpc
  obtain ⟨rest, hrest⟩ := fetchDecode_eq_ok_iff.1 h
  have hlen := congrArg List.length (encodeInvertsDecode _ _ _ _ hrest)
  rw [List.length_append, encode_length] at hlen
  exact ⟨hpc.1, by omega⟩

/-- The fetch looks at the parameters, `pc` and memory only. -/
theorem fetchDecode_congr {s t : State} (hcfg : t.cfg = s.cfg) (hpc : t.pc = s.pc) (hmem : t.mem = s.mem) :
    fetchDecode t = fetchDecode s := by
  cases s
  cases t
  cases hcfg
  cases hpc
  cases hmem
  rfl

/-- R111, R183: a running machine whose `pc` is outside memory faults at the fetch of the opcode byte. -/
theorem step_of_pc_outside {s : State} (hrun : s.status = .running)
    (hpc : ¬ (0 ≤ s.pc.toInt ∧ s.pc.toInt < s.cfg.memSize)) :
    step s = .next (s.faultedWith .memoryFault 3 s.pc.toInt) := by
  have hfetch : fetchDecode s = .error (.memoryFault s.pc.toInt) := by
    rw [fetchDecode, readU8_error (by omega)]
  exact step_of_fetch_fault hrun hfetch

/-- The step of a machine that fetches `i` is that of `i`. -/
theorem exec_of_step {s t : State} {i : Instr} (hrun : s.status = .running) (hi : fetchDecode s = .ok i)
    (h : step s = .next t) : exec i s = .next t :=
  (step_of_fetched hrun hi).symm.trans h

/-! ## A word placed at `pc` (log entries 8 and 9) -/

theorem tableBytes_length (nbits w : Nat) : (tableBytes nbits w).length = 9 := by
  simp [tableBytes, maxLength]

/-- Where nine bytes fit at `pc`, placing nine is one run of bytes. -/
theorem placeAtPc_of_fits {s : State} {bytes : List Byte} (hlen : bytes.length = 9) (h0 : 0 ≤ s.pc.toInt)
    (hN : s.pc.toInt + 9 ≤ s.cfg.memSize) : placeAtPc s bytes = s.setMem (s.mem.writeBytes s.pc.toNat bytes) := by
  have hnat := toNat_toInt h0
  have hin : s.inBounds s.pc.toInt 1 = true := (s.inBounds_iff _ _).2 ⟨h0, by omega⟩
  rw [placeAtPc, if_pos hin, List.take_of_length_le (by omega)]

/-- Nine bytes placed where they fit are the bytes at `pc`. -/
theorem bytesAtPc_placeAtPc {s : State} {bytes : List Byte} (hs : s.WF) (hlen : bytes.length = 9)
    (h0 : 0 ≤ s.pc.toInt) (hN : s.pc.toInt + 9 ≤ s.cfg.memSize) : bytesAtPc (placeAtPc s bytes) = bytes := by
  have hnat := toNat_toInt h0
  rw [placeAtPc_of_fits hlen h0 hN]
  have hin : (s.setMem (s.mem.writeBytes s.pc.toNat bytes)).inBounds s.pc.toInt 1 = true :=
    (State.inBounds_iff _ _ _).2 ⟨h0, by simp only [State.setMem_cfg]; omega⟩
  have hcount : min maxLength (s.cfg.memSize - s.pc.toNat) = bytes.length := by
    rw [maxLength, hlen]
    omega
  simp only [bytesAtPc, State.setMem_pc, State.setMem_cfg, hin, if_true, hcount, State.setMem_byteAt]
  refine List.ext_getElem (by simp) fun k _ hk => ?_
  rw [List.getElem_map, List.getElem_range, Memory.get_writeBytes_inside hs.mem_wf hk]

/-! ## `pc` and the mirror register after an instruction (R116, R117) -/

theorem pcNextOf_of_ne_jump {i : Instr} (h : ∀ target, i ≠ .jump target) (s : State) :
    pcNextOf s i = s.pcSeq i.length := by
  cases i with
  | jump target => exact absurd rfl (h target)
  | _ => rfl

/-- R113, R117: a fetched instruction's sequential address does not wrap, and is at most `N`. -/
theorem toInt_pcSeq_of_fetched {s : State} (hs : s.WF) {i : Instr} (h : fetchDecode s = .ok i) :
    (s.pcSeq i.length).toInt = s.pc.toInt + i.length ∧ (s.pcSeq i.length).toInt ≤ s.cfg.memSize := by
  obtain ⟨h0, hN⟩ := fetchDecode_inMemory h
  have hmax := hs.config.memSize_le
  have hseq : (s.pcSeq i.length).toInt = s.pc.toInt + i.length := toInt_pcSeq h0 (by omega)
  exact ⟨hseq, by omega⟩

/-- No instruction writes `IP` but as the destination it names. -/
theorem idxIP_not_mem_writesImplicitly {c : Config} (hc : c.WF) (i : Instr) :
    c.idxIP ∉ Instr.writesImplicitly c i := by
  obtain ⟨⟨-, -, -, hA, -⟩, -, ⟨-, hC, -⟩, ⟨hSP, -⟩, -⟩ := hc.index_ne
  exact not_mem_writesImplicitly (fun _ => hA.symm) (fun _ => hC.symm) (fun _ => hSP.symm)

theorem State.regIP_mirror {s : State} (hs : s.WF) (a : Word) : (s.mirror a).regIP = a := by
  obtain ⟨-, -, -, -, hIP, -⟩ := hs.config.index_lt
  exact (State.readReg_writeReg _ _ _ (hs.regs_length ▸ hIP) _).trans (if_pos rfl)

/-- R116: a completed instruction that does not name `IP` leaves the mirror write there. -/
theorem regIP_of_completed {s u : State} (hs : s.WF) {i : Instr} (hu : bodyOf i (s.mirror (s.pcSeq i.length)) = .ok u)
    (pcNext : Word) (hd : i.destination ≠ some s.cfg.idxIP) : (u.retire pcNext).regIP = s.pcSeq i.length := by
  obtain ⟨hcfg, -⟩ := bodyOf_sameFrame hu
  obtain ⟨-, -, -, -, hIP⟩ := hs.config.index_ne
  have hreg := readReg_of_completed hs hu pcNext hd (idxIP_not_mem_writesImplicitly hs.config i)
  rw [State.counted_of_ne hIP, State.seen, if_pos rfl] at hreg
  rw [State.regIP, State.retire_cfg, hcfg]
  exact hreg

/-- R27, R212: the host's initialisation before a run leaves the mirror register. -/
theorem State.hostInitialize_regIP {s : State} (hs : s.WF) : s.hostInitialize.regIP = s.regIP := by
  obtain ⟨-, -, -, -, hIP⟩ := hs.config.index_ne
  have hwrite : (s.writeReg s.cfg.idxCYC 0).readReg s.cfg.idxIP = s.regIP := State.readReg_writeReg_other _ _ _ hIP
  by_cases hf : s.status = .faulted
  · rw [State.hostInitialize_of_faulted hf]
    exact hwrite
  · rw [State.hostInitialize_of_not_faulted hf]
    exact hwrite

/-- R131: Jump writes `pc`, the mirror and the count, and nothing can fault. -/
theorem exec_jump (target : Word) (s : State) :
    exec (.jump target) s = .next ((s.mirror (s.pcSeq 5)).retire target) := rfl

/-! ## The outcome of a cycle (R15, R119) -/

theorem State.cycleResult_eq_goOn {s : State} : s.cycleResult = .goOn ↔ s.status = .running := by
  cases h : s.status <;> simp [State.cycleResult, h]

theorem State.cycleResult_eq_halt {s : State} : s.cycleResult = .halt ↔ s.status = .halted := by
  cases h : s.status <;> simp [State.cycleResult, h]

theorem State.cycleResult_eq_fault {s : State} {r : Option FaultRecord} :
    s.cycleResult = .fault r ↔ s.status = .faulted ∧ s.fault = r := by
  cases h : s.status <;> simp [State.cycleResult, h]

theorem State.cycle_of_step {s t : State} (h : step s = .next t) : s.cycle = (t, t.cycleResult) := by
  rw [State.cycle, h]

/-- The outcome of a cycle is the one its last state stands for. -/
theorem State.cycle_snd (s : State) : s.cycle.2 = s.cycle.1.cycleResult := by
  unfold State.cycle
  split <;> rfl

/-- R119: only Halt halts a machine, and a fault leaves its record: for any state, well formed or not. -/
theorem step_status {s t : State} (h : step s = .next t) :
    (t.status = .running ∧ fetchDecode s ≠ .ok .halt) ∨ (t.status = .halted ∧ fetchDecode s = .ok .halt) ∨
      (t.status = .faulted ∧ fetchDecode s ≠ .ok .halt ∧ ∃ r, t.fault = some r) := by
  obtain ⟨hrun, ⟨c, -, hne, rfl⟩ | ⟨hhalt, rfl⟩ | ⟨i, u, hi, hne, -, ⟨-, -, hstatus, -⟩, rfl⟩⟩ := step_outcomes h
  · exact .inr (.inr ⟨rfl, hne, _, rfl⟩)
  · exact .inr (.inl ⟨rfl, hhalt⟩)
  · exact .inl ⟨hstatus.trans hrun, by simpa [hi] using hne⟩

/-! ## Runs (R121, R122) -/

/-- One cycle of a run: the run goes on from it, or it is the last. -/
theorem State.cyclesUntilStop_succ (n : Nat) (s : State) :
    s.cyclesUntilStop (n + 1) = if s.cycle.2 = .goOn then s.cycle.1.cyclesUntilStop n else some s.cycle := by
  rw [State.cyclesUntilStop]
  rcases s.cycle with ⟨t, _ | _ | r⟩ <;> rfl

/-- A run ends in a state that is not RUNNING, with the outcome that state stands for. -/
theorem State.cyclesUntilStop_end {n : Nat} {s t : State} {o : CycleResult}
    (h : s.cyclesUntilStop n = some (t, o)) : o = t.cycleResult ∧ o ≠ .goOn := by
  induction n generalizing s with
  | zero => cases h
  | succ n ih =>
    rw [State.cyclesUntilStop_succ] at h
    split at h
    next => exact ih h
    next hstop =>
      have hc : s.cycle = (t, o) := Option.some.inj h
      have hsnd := s.cycle_snd
      rw [hc] at hsnd hstop
      exact ⟨hsnd, hstop⟩

/-- Two amounts of fuel that suffice end a run alike. -/
theorem State.cyclesUntilStop_unique {n m : Nat} {s : State} {p q : State × CycleResult}
    (hp : s.cyclesUntilStop n = some p) (hq : s.cyclesUntilStop m = some q) : p = q := by
  induction n generalizing s m with
  | zero => cases hp
  | succ n ih =>
    cases m with
    | zero => cases hq
    | succ m =>
      rw [State.cyclesUntilStop_succ] at hp hq
      split at hp
      next hgo =>
        rw [if_pos hgo] at hq
        exact ih hp hq
      next hstop =>
        rw [if_neg hstop] at hq
        exact Option.some.inj (hp.symm.trans hq)

/-- R212: the host's initialisation before a run overwrites the `pc` and `CYC` that the host left. -/
theorem State.hostInitialize_setPc_writeReg (s : State) (a v : Word) :
    ((s.setPc a).writeReg s.cfg.idxCYC v).hostInitialize = s.hostInitialize := by
  have hwrite : (((s.setPc a).writeReg s.cfg.idxCYC v).writeReg s.cfg.idxCYC 0).setPc 0 =
      (s.writeReg s.cfg.idxCYC 0).setPc 0 := by
    simp [State.setPc, State.writeReg, List.set_set]
  simp only [State.hostInitialize, State.writeReg_cfg, State.setPc_cfg, State.writeReg_status, State.setPc_status, hwrite]

/-- R131: a machine at a Jump to its own address is there again after the step. -/
theorem step_jump_to_itself {s : State} (hrun : s.status = .running) (hi : fetchDecode s = .ok (.jump s.pc)) :
    ∃ t, step s = .next t ∧ t.status = .running ∧ fetchDecode t = .ok (.jump t.pc) :=
  ⟨_, (step_of_fetched hrun hi).trans (exec_jump s.pc s), hrun, (fetchDecode_congr (s := s) rfl rfl rfl).trans hi⟩

theorem cyclesUntilStop_jump_to_itself {s : State} (hrun : s.status = .running)
    (hi : fetchDecode s = .ok (.jump s.pc)) (fuel : Nat) : s.cyclesUntilStop fuel = none := by
  induction fuel generalizing s with
  | zero => rfl
  | succ n ih =>
    obtain ⟨t, ht, htrun, hti⟩ := step_jump_to_itself hrun hi
    rw [State.cyclesUntilStop_succ, State.cycle_of_step ht, if_pos (State.cycleResult_eq_goOn.2 htrun)]
    exact ih htrun hti

/-! ## The statements -/

/-- Settles O10: the three ends of an instruction, of which the last is at the Jump target or at the sequential address. -/
theorem programCounterUpdate : Obligations.ProgramCounterUpdate := by
  intro s t i hs hrun hi h
  refine ⟨fun hfaulted => ?_, fun hne => ?_, step_of_pc_outside⟩
  · obtain ⟨-, ⟨c, -, -, rfl⟩ | ⟨-, rfl⟩ | ⟨_, u, -, -, -, ⟨-, -, hstatus, -⟩, rfl⟩⟩ := step_outcomes h
    · rfl
    · cases hfaulted
    · cases hfaulted.symm.trans (hstatus.trans hrun)
  · rcases exec_cases (exec_of_step hrun hi h) with ⟨rfl, rfl⟩ | ⟨-, c, -, rfl⟩ | ⟨hhalt, u, -, -, rfl⟩
    · rfl
    · exact absurd rfl hne
    · split
      next => exact absurd rfl hhalt
      next => rfl
      next hjump =>
        obtain ⟨hseq, hN⟩ := toInt_pcSeq_of_fetched hs hi
        have hlen := i.length_eq
        rw [State.retire_pc, pcNextOf_of_ne_jump hjump]
        exact ⟨by omega, hN⟩

/-- Settles O11: Halt's mirror write is of `pc`, a completed instruction's of the sequential address, and a fault's is
discarded. -/
theorem mirrorRegisterAfterACycle : Obligations.MirrorRegisterAfterACycle := by
  refine ⟨fun s t i hs hrun hi h => ?_, fun _ => State.hostInitialize_regIP⟩
  rcases exec_cases (exec_of_step hrun hi h) with ⟨rfl, rfl⟩ | ⟨hhalt, c, hc, rfl⟩ | ⟨hhalt, u, hu, hf, rfl⟩
  · have hIP := State.regIP_mirror hs s.pc
    exact ⟨nofun, fun _ => hIP, nofun, fun _ _ _ => hIP⟩
  · refine ⟨fun _ => rfl, fun h => absurd h hhalt, ?_, fun hne => absurd rfl hne⟩
    rintro target rfl
    cases hc
  · obtain ⟨-, -, hstatus, -⟩ := hf
    have hIP := regIP_of_completed hs hu (pcNextOf s i)
    refine ⟨fun hfaulted => ?_, fun h => absurd h hhalt, ?_, fun _ hjump hd => ?_⟩
    · cases hfaulted.symm.trans (hstatus.trans hrun)
    · rintro target rfl
      exact hIP nofun
    · rw [hIP hd, State.retire_pc, pcNextOf_of_ne_jump hjump]

/-- Settles O13: the outcome of a cycle is read off the status and the record in which its step ends. -/
theorem cycleOutcomes : Obligations.CycleOutcomes := by
  intro s hrun
  obtain ⟨t, ht⟩ := step_next_of_running hrun
  rw [State.cycle_of_step ht]
  refine ⟨State.cycleResult_eq_halt.trans ?_, fun r => State.cycleResult_eq_fault, ?_⟩
  · rcases step_status ht with ⟨hst, hne⟩ | ⟨hst, hhalt⟩ | ⟨hst, hne, -⟩
    · simp [hst, hne]
    · simp [hst, hhalt]
    · simp [hst, hne]
  · rcases step_status ht with ⟨hst, -⟩ | ⟨hst, -⟩ | ⟨hst, -, r, hr⟩
    · exact .inl (State.cycleResult_eq_goOn.2 hst)
    · exact .inr (.inl (State.cycleResult_eq_halt.2 hst))
    · exact .inr (.inr ⟨r, State.cycleResult_eq_fault.2 ⟨hst, hr⟩⟩)

/-- Settles O51: the last cycle's outcome is not `continue`, fuel that suffices is as good as any, and a run begins
by overwriting `pc` and `CYC`. -/
theorem runsEndHaltedOrFaulted : Obligations.RunsEndHaltedOrFaulted := by
  refine ⟨?_, ?_, ?_⟩
  · rintro s t o ⟨fuel, h⟩
    obtain ⟨ho, hne⟩ := State.cyclesUntilStop_end h
    cases o with
    | goOn => exact absurd rfl hne
    | halt => exact .inl ⟨rfl, State.cycleResult_eq_halt.1 ho.symm⟩
    | fault r =>
      obtain ⟨hst, rfl⟩ := State.cycleResult_eq_fault.1 ho.symm
      exact .inr ⟨rfl, hst⟩
  · rintro s t t' o o' ⟨_, h⟩ ⟨_, h'⟩
    exact Prod.mk.inj (State.cyclesUntilStop_unique h h')
  · rintro s t o a v ⟨fuel, h⟩
    refine ⟨fuel, ?_⟩
    rw [State.runWithFuel, State.hostInitialize_setPc_writeReg]
    exact h

/-- Settles O52, by induction on the fuel: each cycle leaves the machine at the same Jump. -/
theorem jumpToItselfNeverEnds : Obligations.JumpToItselfNeverEnds := by
  intro s fuel hs hrun h0 hN henc
  exact cyclesUntilStop_jump_to_itself hrun (fetchDecode_of_encoded hs.config h0 hN henc) fuel

/-- Settles O54: the bytes at `pc` are those of the placed word. -/
theorem placedWordRunsNext : Obligations.PlacedWordRunsNext := by
  intro s nbits w i rest hs hrun h0 hN hdecode
  have hlen := tableBytes_length nbits w
  have hplaced := placeAtPc_of_fits hlen h0 hN
  have hbytes := bytesAtPc_placeAtPc hs hlen h0 hN
  refine step_of_fetched ?_ (fetchDecode_eq_ok_iff.2 ⟨rest, ?_⟩)
  · rw [State.withFetchWord, hplaced]
    exact hrun
  · rw [State.withFetchWord, hbytes, hplaced]
    exact hdecode

/-- Settles O6: the fetch unit reads what the decoder reads, and the instruction whose encoding stands at `pc`. -/
theorem stepRunsTheDecodedInstruction : Obligations.StepRunsTheDecodedInstruction := fun _ hs hrun =>
  ⟨fun _ rest h => step_of_fetched hrun (fetchDecode_eq_ok_iff.2 ⟨rest, h⟩),
    fun _ h0 hN h => step_of_fetched hrun (fetchDecode_of_encoded hs.config h0 hN h)⟩

/-- Settles O14: by the status test of `step`, and the outcome of the state that stays. -/
theorem stoppedMachineHasNoStep : Obligations.StoppedMachineHasNoStep := by
  intro s
  constructor
  · intro hst
    have hstep : step s = .fault .halted := by simp only [step, hst]
    exact ⟨hstep, by rw [State.cycle, hstep, State.cycleResult_eq_halt.2 hst]⟩
  · intro hst
    have hstep : step s = .fault (.faulted s.fault) := by simp only [step, hst]
    exact ⟨hstep, by rw [State.cycle, hstep, State.cycleResult_eq_fault.2 ⟨hst, rfl⟩]⟩

end Sys2Proof.Machine
end

section
/-! PROOFS. The control instructions (41_control.md): Halt stops where it stands, and Jump and NoOperation are the common part
of the cycle and nothing beyond it. -/

namespace Sys2Proof.Machine

/-- R110: what the common part of the cycle leaves when `execute` does nothing. -/
theorem completesTo_retire_mirror {s : State} (hs : s.WF) (op : Opcode) (pcNext : Word) :
    CompletesTo s ((s.mirror (s.pcSeq op.length)).retire pcNext) op.length pcNext [] ∧
      SameMemory s ((s.mirror (s.pcSeq op.length)).retire pcNext) :=
  ⟨completesTo_retire hs pcNext rfl rfl rfl (State.mirror_regs_length ..) fun _ _ => rfl, fun _ => rfl⟩

/-- R132: NoOperation leaves the sequential address in `pc`, the mirror write and the count, and nothing can fault. -/
theorem exec_noOperation (s : State) :
    exec .noOperation s = .next ((s.mirror (s.pcSeq 1)).retire (s.pcSeq 1)) := rfl

/-! ## The statements -/

/-- Settles O16: the one register Halt writes is the mirror, where it leaves `pc` itself. -/
theorem haltCompletes : Obligations.HaltCompletes := by
  intro s hs
  obtain ⟨-, -, -, -, hIP, -⟩ := hs.config.index_lt
  refine ⟨_, exec_halt s, rfl, rfl, rfl, rfl, State.mirror_regs_length .., fun j _ => ?_, fun _ => rfl⟩
  rw [State.setStatus_readReg]
  exact State.readReg_writeReg _ _ _ (hs.regs_length ▸ hIP) j

/-- Settles O17: Jump is the common part of the cycle with the target as the next `pc`. -/
theorem jumpCompletes : Obligations.JumpCompletes := fun s target hs =>
  ⟨_, exec_jump target s, completesTo_retire_mirror hs .jump target⟩

/-- Settles O18: NoOperation is the common part of the cycle alone, and names no destination. -/
theorem noOperationCompletes : Obligations.NoOperationCompletes := by
  refine ⟨encode_eq_bytesOfWord OpcodeMap.default .noOperation, fun s hs => ?_⟩
  obtain ⟨hframe, hmem⟩ := completesTo_retire_mirror hs .noOperation (s.pcSeq 1)
  have hIP := regIP_of_completed hs (i := .noOperation) rfl (s.pcSeq 1) nofun
  have hCYC := regCYC_of_completed hs (i := .noOperation) rfl (s.pcSeq 1) nofun
  exact ⟨_, exec_noOperation s, hframe, hmem, hIP, hCYC⟩

end Sys2Proof.Machine
end

section
/-! PROOFS. Data movement (42_data_movement.md): what Store, Load, LoadIndirect and MoveRegister check and in which order,
what one written register makes of a whole cycle, and that a stored word is loaded back. -/

namespace Sys2Proof.Machine

/-! ## From `execute` to the whole cycle (R110, R186) -/

/-- R186: an instruction whose `execute` raises ends in the fault's record on the state the cycle began in. -/
theorem exec_of_bodyOf_error {i : Instr} {s : State} {c : Cause} (hi : i ≠ .halt)
    (hc : bodyOf i (s.mirror (s.pcSeq i.length)) = .error c) :
    exec i s = .next (s.faultedWith c.kind c.kind.code c.info) := by
  rw [exec_eq_runInstr hi, ← State.takeFault_eq]
  exact runInstr_error hc

/-- R110: an instruction whose `execute` writes `v` to register `d`, and nothing else, completes with that write. -/
theorem exec_of_bodyOf_writeReg {i : Instr} {s : State} {d : Nat} {v : Word} (hs : s.WF) (hi : i ≠ .halt)
    (hd : d < s.cfg.regCount)
    (hbody : bodyOf i (s.mirror (s.pcSeq i.length)) = .ok ((s.mirror (s.pcSeq i.length)).writeReg d v)) :
    ∃ t, exec i s = .next t ∧ CompletesTo s t i.length (pcNextOf s i) [d] ∧ t.readReg d = s.counted d v ∧
      SameMemory s t := by
  obtain ⟨hcfg, -, hstatus, hfault, hlen⟩ := (SameFrame.mirror s _).trans (bodyOf_sameFrame hbody)
  have hwritten : ((s.mirror (s.pcSeq i.length)).writeReg d v).readReg d = v := by
    rw [State.readReg_writeReg _ _ _ (by simpa [hs.regs_length] using hd), if_pos rfl]
  refine ⟨_, exec_of_bodyOf_ok hi hbody, ?_, readReg_retire_of_written hs hcfg hlen _ hwritten, fun _ => rfl⟩
  exact completesTo_retire hs (op := i.opcode) _ hcfg hstatus hfault hlen fun j hj =>
    State.readReg_writeReg_other _ _ _ (by simpa using hj)

/-- An instruction other than Halt keeps a machine well formed, whatever its status. -/
theorem exec_keeps_WF {i : Instr} {s t : State} (hs : s.WF) (hi : i ≠ .halt) (h : exec i s = .next t) : t.WF := by
  rcases exec_cases h with ⟨hhalt, -⟩ | ⟨-, c, hc, rfl⟩ | ⟨-, u, hu, -, rfl⟩
  · exact absurd hhalt hi
  · exact hs.takeFault (bodyOf_raises (s := s.mirror _) hc)
  · exact (bodyOf_WF (hs.mirror _) hu).retire _

/-! ## What each `execute` checks, and in which order (R187) -/

section checks
variable {s : State} {r addr : Word}

theorem storeBody_registerFault (hr : s.cfg.regCount ≤ r.toNat) :
    storeBody r addr s = .error (.registerFault r.toNat) := by
  rw [storeBody, regIndex_error hr]

theorem storeBody_memoryFault (hr : r.toNat < s.cfg.regCount) (ha : ¬ s.WordInMemory (addressU32 addr)) :
    storeBody r addr s = .error (.memoryFault addr.toNat) := by
  rw [storeBody, regIndex_ok hr]
  exact writeWord_error _ ha

theorem loadBody_registerFault {imm : Word} (hr : s.cfg.regCount ≤ r.toNat) :
    loadBody r imm s = .error (.registerFault r.toNat) := by
  rw [loadBody, regIndex_error hr]

theorem loadBody_ok {imm : Word} (hr : r.toNat < s.cfg.regCount) :
    loadBody r imm s = .ok (s.writeReg r.toNat imm) := by
  rw [loadBody, regIndex_ok hr, literal]

theorem loadIndirectBody_registerFault (hr : s.cfg.regCount ≤ r.toNat) :
    loadIndirectBody r addr s = .error (.registerFault r.toNat) := by
  rw [loadIndirectBody, regIndex_error hr]

theorem loadIndirectBody_memoryFault (hr : r.toNat < s.cfg.regCount) (ha : ¬ s.WordInMemory addr.toInt) :
    loadIndirectBody r addr s = .error (.memoryFault addr.toInt) := by
  simp only [loadIndirectBody, regIndex_ok hr, addressI32, readWord_error ha]

theorem loadIndirectBody_ok (hr : r.toNat < s.cfg.regCount) (ha : s.WordInMemory addr.toInt) :
    loadIndirectBody r addr s = .ok (s.writeReg r.toNat (s.wordAt addr.toNat)) := by
  simp only [loadIndirectBody, regIndex_ok hr, addressI32, readWord_ok ha, toNat_toInt ha.1]

variable {rd rs : Word}

theorem moveRegisterBody_destinationFault (hd : s.cfg.regCount ≤ rd.toNat) :
    moveRegisterBody rd rs s = .error (.registerFault rd.toNat) := by
  rw [moveRegisterBody, regIndex_error hd]

theorem moveRegisterBody_sourceFault (hd : rd.toNat < s.cfg.regCount) (hr : s.cfg.regCount ≤ rs.toNat) :
    moveRegisterBody rd rs s = .error (.registerFault rs.toNat) := by
  simp only [moveRegisterBody, regIndex_ok hd, regIndex_error hr]

theorem moveRegisterBody_ok (hd : rd.toNat < s.cfg.regCount) (hr : rs.toNat < s.cfg.regCount) :
    moveRegisterBody rd rs s = .ok (s.writeReg rd.toNat (s.readReg rs.toNat)) := by
  simp only [moveRegisterBody, regIndex_ok hd, regIndex_ok hr]

end checks

/-! ## A stored word is loaded back (R140, R142) -/

/-- R142: a LoadIndirect with a legal register and address completes, and loads the word as the cycle found it: the mirror
write does not reach memory. -/
theorem exec_loadIndirect_completes {s : State} (hs : s.WF) {r addr : Word} (hr : r.toNat < s.cfg.regCount)
    (ha : s.WordInMemory addr.toInt) :
    ∃ t, exec (.loadIndirect r addr) s = .next t ∧ CompletesTo s t 9 (s.pc + 9) [r.toNat] ∧
      t.readReg r.toNat = s.counted r.toNat (s.wordAt addr.toNat) ∧ SameMemory s t :=
  exec_of_bodyOf_writeReg (i := .loadIndirect r addr) hs nofun hr (loadIndirectBody_ok (s := s.mirror _) hr ha)

/-! ## The statements -/

/-- Settles O19: the register check precedes the address check, and past both the Store completes. -/
theorem storeRule : Obligations.StoreRule := by
  refine fun s r addr hs => ⟨fun hr => ?_, fun hr ha => ?_, fun hr ha => ?_⟩
  · exact exec_of_bodyOf_error (i := .store r addr) nofun (storeBody_registerFault (s := s.mirror _) hr)
  · exact exec_of_bodyOf_error (i := .store r addr) nofun (storeBody_memoryFault (s := s.mirror _) hr ha)
  · obtain ⟨t, ht, hframe, hstored⟩ := exec_store_completes hs hr ha
    refine ⟨t, ht, hframe, fun a haddr => ?_⟩
    rwa [Int.ofNat.inj haddr] at hstored

/-- Settles O20: the one check is the register's, since the literal has every value. -/
theorem loadRule : Obligations.LoadRule := by
  refine fun s r imm hs => ⟨?_, fun hr => ?_, fun hr => ?_⟩
  · exact encode_eq_bytesOfWord OpcodeMap.default (.load r imm)
  · exact exec_of_bodyOf_error (i := .load r imm) nofun (loadBody_registerFault (s := s.mirror _) hr)
  · exact exec_of_bodyOf_writeReg (i := .load r imm) hs nofun hr (loadBody_ok (s := s.mirror _) hr)

/-- Settles O21: the register check precedes the address check, and past both the LoadIndirect completes. -/
theorem loadIndirectRule : Obligations.LoadIndirectRule := by
  refine fun s r addr hs => ⟨fun hr => ?_, fun hr ha => ?_, exec_loadIndirect_completes hs⟩
  · exact exec_of_bodyOf_error (i := .loadIndirect r addr) nofun (loadIndirectBody_registerFault (s := s.mirror _) hr)
  · exact exec_of_bodyOf_error (i := .loadIndirect r addr) nofun (loadIndirectBody_memoryFault (s := s.mirror _) hr ha)

/-- Settles O22: the destination check precedes the source check, and the source is read after the mirror write. -/
theorem moveRegisterRule : Obligations.MoveRegisterRule := by
  refine fun s rd rs hs => ⟨fun hd => ?_, fun hd hr => ?_, fun hd hr => ?_⟩
  · exact exec_of_bodyOf_error (i := .moveRegister rd rs) nofun (moveRegisterBody_destinationFault (s := s.mirror _) hd)
  · exact exec_of_bodyOf_error (i := .moveRegister rd rs) nofun (moveRegisterBody_sourceFault (s := s.mirror _) hd hr)
  · have hbody := moveRegisterBody_ok (s := s.mirror (s.pcSeq 9)) hd hr
    have hread : (s.mirror (s.pcSeq 9)).readReg rs.toNat = s.seen 9 rs.toNat := State.readReg_mirror hs .moveRegister _
    rw [hread] at hbody
    exact exec_of_bodyOf_writeReg (i := .moveRegister rd rs) hs nofun hd hbody

/-- Settles O23: a legal address is the same read as `u32` and as `i32`, so LoadIndirect finds the bytes Store left. -/
theorem storeThenLoadIndirectReadsBack : Obligations.StoreThenLoadIndirectReadsBack := by
  intro s r r2 addr hs hr hr2 haddr
  have hstore : s.WordInMemory (addressU32 addr) := ⟨Int.natCast_nonneg _, Int.ofNat_le.2 haddr⟩
  have hload : s.WordInMemory addr.toInt := by
    have heq := addressU32_eq_addressI32 hs (.inl hstore)
    rwa [heq] at hstore
  obtain ⟨t, ht, ⟨-, htstatus, -, htcfg, -⟩, hstored, -⟩ := exec_store_completes hs hr hstore
  have htWF : t.WF := exec_keeps_WF (i := .store r addr) hs nofun ht
  obtain ⟨u, hu, ⟨-, hustatus, -⟩, huread, -⟩ :=
    exec_loadIndirect_completes (s := t) (r := r2) (addr := addr) htWF (htcfg ▸ hr2)
      (by rwa [State.WordInMemory, htcfg])
  refine ⟨t, u, ht, hu, hustatus.trans htstatus, ?_⟩
  rw [huread, wordAt_of_bytes hstored, State.counted, State.counted, htcfg]

end Sys2Proof.Machine
end

section
/-! PROOFS. Arithmetic (43_arithmetic.md): what Add, Subtract, Multiply, Divide and CompareEqual make of `A` and `B`, and from
it what a whole cycle of each leaves: the results, a fault's record, and the frame. -/

namespace Sys2Proof.Machine

/-! ## One result, in `A` (R150) -/

/-- R110, R150: an instruction whose `execute` writes `v` to `A`, and nothing else, completes with `v` in `A`: the count of
the cycle's end does not reach `A`. -/
theorem exec_of_bodyOf_writeRegA {i : Instr} {s : State} {v : Word} (hs : s.WF) (hi : i ≠ .halt)
    (hbody : bodyOf i (s.mirror (s.pcSeq i.length)) = .ok ((s.mirror (s.pcSeq i.length)).writeReg s.cfg.idxA v)) :
    ∃ t, exec i s = .next t ∧ CompletesTo s t i.length (pcNextOf s i) [s.cfg.idxA] ∧ t.regA = v ∧ SameMemory s t := by
  obtain ⟨hA, -⟩ := hs.config.index_lt
  obtain ⟨⟨-, -, -, -, hCYC⟩, -⟩ := hs.config.index_ne
  obtain ⟨t, ht, hframe, hread, hmem⟩ := exec_of_bodyOf_writeReg hs hi hA hbody
  refine ⟨t, ht, hframe, ?_, hmem⟩
  obtain ⟨-, -, -, hcfg, -⟩ := hframe
  rw [State.regA, hcfg, hread, State.counted_of_ne hCYC]

/-! ## Add, Subtract and Multiply (R151, R152, R153, R156) -/

section writeA
variable {s : State} {exact : Int}

theorem writeA_ok (h : s.cfg.arithOverflow = .wrap ∨ (-2147483648 ≤ exact ∧ exact ≤ 2147483647)) :
    writeA s exact = .ok (s.writeReg s.cfg.idxA (wrap32 exact)) := by
  rw [writeA, arithResult_ok h]

theorem writeA_error (hp : s.cfg.arithOverflow = .fault) (h : ¬ (-2147483648 ≤ exact ∧ exact ≤ 2147483647)) :
    writeA s exact = .error (.arithmeticFault 2) := by
  rw [writeA, hp, arithResult_error h]

end writeA

/-- R151 to R153: `i` is Add, Subtract or Multiply, and `exact` its exact result on `A` and `B`. -/
def HasExactResult (s : State) (i : Instr) (exact : Int) : Prop :=
  (i = .add ∧ exact = s.regA.toInt + s.regB.toInt) ∨ (i = .subtract ∧ exact = s.regA.toInt - s.regB.toInt) ∨
    (i = .multiply ∧ exact = s.regA.toInt * s.regB.toInt)

section exactResult
variable {s : State} {i : Instr} {exact : Int}

/-- Add, Subtract and Multiply are of one byte, and `pc` goes on to the next. -/
theorem HasExactResult.shape (h : HasExactResult s i exact) :
    i ≠ .halt ∧ i.length = 1 ∧ pcNextOf s i = s.pc + 1 := by
  rcases h with ⟨rfl, -⟩ | ⟨rfl, -⟩ | ⟨rfl, -⟩ <;> exact ⟨nofun, rfl, rfl⟩

/-- The `execute` of Add, Subtract or Multiply brings the exact result into `A`: the mirror write reaches neither operand. -/
theorem HasExactResult.bodyOf_mirror (hs : s.WF) (h : HasExactResult s i exact) (a : Word) :
    bodyOf i (s.mirror a) = writeA (s.mirror a) exact := by
  obtain ⟨hA, hB, -⟩ := State.operands_mirror hs a
  rcases h with ⟨rfl, rfl⟩ | ⟨rfl, rfl⟩ | ⟨rfl, rfl⟩
  · rw [bodyOf, addBody, hA, hB]
  · rw [bodyOf, subtractBody, hA, hB]
  · rw [bodyOf, multiplyBody, hA, hB]

end exactResult

/-! ## Divide (R154, R157) -/

/-- The remainder of a truncated division is smaller than the divisor. -/
theorem abs_tmod_lt (a : Int) {b : Int} (hb : b ≠ 0) : |a.tmod b| < |b| := by
  rw [Int.abs_eq_natAbs, Int.abs_eq_natAbs, Int.natAbs_tmod]
  exact Int.ofNat_lt.2 (Nat.mod_lt _ (Int.natAbs_pos.2 hb))

/-- The remainder of a truncated division is 0 or has the dividend's sign. -/
theorem tmod_eq_zero_or_pos_iff (a b : Int) : a.tmod b = 0 ∨ (0 < a.tmod b ↔ 0 < a) := by
  have hsign := Int.sign_tmod a b
  split at hsign
  · exact .inl (Int.sign_eq_zero_iff_zero.1 hsign)
  · exact .inr (by rw [← Int.sign_eq_one_iff_pos, hsign, Int.sign_eq_one_iff_pos])

/-- The remainder by a register's value fits `i32`. -/
theorem tmod_inI32 (a : Int) {b : Int} (hb : -2147483648 ≤ b ∧ b ≤ 2147483647) (hb0 : b ≠ 0) :
    -2147483648 ≤ a.tmod b ∧ a.tmod b ≤ 2147483647 := by
  have hlt := abs_tmod_lt a hb0
  have hle : |b| ≤ 2147483648 := abs_le.2 ⟨hb.1, by omega⟩
  have hbound := abs_lt.1 (hlt.trans_le hle)
  omega

/-- Two registers written one after the other each hold their value. -/
theorem readReg_writeReg_writeReg {s : State} {i j : Nat} {v w : Word} (hi : i < s.regs.length)
    (hj : j < s.regs.length) (hne : i ≠ j) :
    ((s.writeReg i v).writeReg j w).readReg i = v ∧ ((s.writeReg i v).writeReg j w).readReg j = w := by
  constructor
  · rw [State.readReg_writeReg_other _ _ _ hne, State.readReg_writeReg _ _ _ hi, if_pos rfl]
  · rw [State.readReg_writeReg _ _ _ (by rwa [State.writeReg_regs_length]), if_pos rfl]

/-- Divide divides the operands as the last cycle left them: the mirror write reaches neither. -/
theorem divResult_mirror {s : State} (hs : s.WF) (a : Word) :
    divResult (s.mirror a).cfg.divOverflow (s.mirror a).regA.toInt (s.mirror a).regB.toInt =
      divResult s.cfg.divOverflow s.regA.toInt s.regB.toInt := by
  obtain ⟨hA, hB, -⟩ := State.operands_mirror hs a
  rw [hA, hB, State.mirror_cfg]

/-- R154, R186: a Divide that has no result ends in the fault's record. -/
theorem exec_divide_of_error {s : State} {c : Cause} (hs : s.WF)
    (h : divResult s.cfg.divOverflow s.regA.toInt s.regB.toInt = .error c) :
    exec .divide s = .next (s.faultedWith c.kind c.kind.code c.info) := by
  refine exec_of_bodyOf_error nofun ?_
  rw [bodyOf, divideBody, divResult_mirror hs, h]

/-- R154: a Divide that has a result completes with the quotient in `A` and the remainder in `C`. -/
theorem exec_divide_of_ok {s : State} {q r : Word} (hs : s.WF)
    (h : divResult s.cfg.divOverflow s.regA.toInt s.regB.toInt = .ok (q, r)) :
    ∃ t, exec .divide s = .next t ∧ CompletesTo s t 1 (s.pc + 1) [s.cfg.idxA, s.cfg.idxC] ∧
      t.regA = q ∧ t.regC = r ∧ SameMemory s t := by
  obtain ⟨hA, -, hC, -⟩ := hs.config.index_lt
  obtain ⟨⟨-, hAC, -, -, hACYC⟩, -, ⟨-, -, hCCYC⟩, -⟩ := hs.config.index_ne
  have hbody : bodyOf .divide (s.mirror (s.pcSeq 1)) =
      .ok (((s.mirror (s.pcSeq 1)).writeReg s.cfg.idxA q).writeReg s.cfg.idxC r) := by
    rw [bodyOf, divideBody, divResult_mirror hs, h, State.mirror_cfg]
  obtain ⟨hcfg, -, hstatus, hfault, hlen⟩ := (SameFrame.mirror s _).trans (bodyOf_sameFrame hbody)
  have hregs : (s.mirror (s.pcSeq 1)).regs.length = s.cfg.regCount := by
    rw [State.mirror_regs_length, hs.regs_length]
  obtain ⟨hq, hr⟩ := readReg_writeReg_writeReg (v := q) (w := r) (hregs ▸ hA) (hregs ▸ hC) hAC
  have hreadA := readReg_retire_of_written hs hcfg hlen (s.pc + 1) hq
  have hreadC := readReg_retire_of_written hs hcfg hlen (s.pc + 1) hr
  rw [State.counted_of_ne hACYC] at hreadA
  rw [State.counted_of_ne hCCYC] at hreadC
  refine ⟨_, exec_of_bodyOf_ok nofun hbody, ?_, hreadA, hreadC, fun _ => rfl⟩
  refine completesTo_retire hs (op := .divide) _ hcfg hstatus hfault hlen fun j hj => ?_
  obtain ⟨hjA, hjC⟩ : j ≠ s.cfg.idxA ∧ j ≠ s.cfg.idxC := by simpa using hj
  exact (State.readReg_writeReg_other _ _ _ hjC).trans (State.readReg_writeReg_other _ _ _ hjA)

/-- R157: outside the two corners Divide leaves the truncated quotient and remainder, unchanged by their 32 bits. -/
theorem exec_divide_truncates {s : State} (hs : s.WF) (hb : s.regB.toInt ≠ 0)
    (hcorner : ¬ (s.regA.toInt = -2147483648 ∧ s.regB.toInt = -1)) :
    ∃ t, exec .divide s = .next t ∧ CompletesTo s t 1 (s.pc + 1) [s.cfg.idxA, s.cfg.idxC] ∧
      t.regA.toInt = s.regA.toInt.tdiv s.regB.toInt ∧ t.regC.toInt = s.regA.toInt.tmod s.regB.toInt ∧
      SameMemory s t := by
  obtain ⟨t, ht, hframe, hq, hr, hmem⟩ := exec_divide_of_ok hs (divResult_ok s.cfg.divOverflow hb hcorner)
  rw [sub_tdiv_mul] at hr
  refine ⟨t, ht, hframe, ?_, ?_, hmem⟩
  · rw [hq, toInt_wrap32 (tdiv_inI32 (inI32_toInt _) hcorner)]
  · rw [hr, toInt_wrap32 (tmod_inI32 _ (inI32_toInt _) hb)]

/-! ## CompareEqual (R155) -/

/-- R155: CompareEqual has no check, and completes with its result in `A`. -/
theorem exec_compareEqual_completes {s : State} (hs : s.WF) :
    ∃ t, exec .compareEqual s = .next t ∧ CompletesTo s t 1 (s.pc + 1) [s.cfg.idxA] ∧
      t.regA = equalResult s.regA s.regB ∧ SameMemory s t := by
  obtain ⟨hA, hB, -⟩ := State.operands_mirror hs (s.pcSeq Instr.compareEqual.length)
  refine exec_of_bodyOf_writeRegA (i := .compareEqual) hs nofun ?_
  rw [bodyOf, compareEqualBody, hA, hB, State.mirror_cfg]

/-! ## The statements -/

/-- Settles O25: the three instructions share one end, `writeA`, which keeps the low 32 bits of the exact result. -/
theorem addSubtractMultiplyComplete : Obligations.AddSubtractMultiplyComplete := by
  intro s i exact hs (hexact : HasExactResult s i exact) hfits
  obtain ⟨hi, hlen, hpc⟩ := hexact.shape
  have hbody := (hexact.bodyOf_mirror hs (s.pcSeq i.length)).trans (writeA_ok hfits)
  obtain ⟨t, ht, hframe, hA, hmem⟩ := exec_of_bodyOf_writeRegA hs hi hbody
  rw [hlen, hpc] at hframe
  refine ⟨t, ht, hframe, ?_, fun hin => ?_, hmem⟩
  · rw [hA, wrap32, BitVec.toInt_ofInt]
  · rw [hA, toInt_wrap32 hin]

/-- Settles O26: the overflow is raised before anything is written. -/
theorem arithmeticOverflowFaults : Obligations.ArithmeticOverflowFaults := by
  intro s i exact hs (hexact : HasExactResult s i exact) hpolicy hout
  obtain ⟨hi, -, -⟩ := hexact.shape
  exact exec_of_bodyOf_error hi ((hexact.bodyOf_mirror hs _).trans (writeA_error hpolicy hout))

/-- Settles O27: truncated division has the three properties, and both of its results fit. -/
theorem divideCompletes : Obligations.DivideCompletes := by
  intro s hs hb hcorner
  obtain ⟨t, ht, hframe, hq, hr, hmem⟩ := exec_divide_truncates hs hb hcorner
  refine ⟨t, ht, hframe, ?_, ?_, ?_, hmem⟩
  · rw [hq, hr, Int.tdiv_mul_add_tmod]
  · rw [hr]
    exact abs_tmod_lt _ hb
  · rw [hr]
    exact tmod_eq_zero_or_pos_iff _ _

/-- Settles O28: the zero divisor is tested first, under either policy, and `DIV_OVERFLOW` decides `INT_MIN / -1`. -/
theorem divideCorners : Obligations.DivideCorners := by
  refine fun s hs => ⟨fun hb => ?_, fun ha hb hpolicy => ?_, fun ha hb hpolicy => ?_⟩
  · exact exec_divide_of_error hs (divResult_zero _ hb)
  · refine exec_divide_of_error hs (c := .arithmeticFault 1) ?_
    rw [divResult_corner _ ha hb, hpolicy]
  · have hresult : divResult s.cfg.divOverflow s.regA.toInt s.regB.toInt = .ok (wrap32 intMin, 0) := by
      rw [divResult_corner _ ha hb, hpolicy]
    obtain ⟨t, ht, hframe, hq, hr, hmem⟩ := exec_divide_of_ok hs hresult
    exact ⟨t, ht, hframe, by rw [hq, toInt_wrap32 (by decide)], by rw [hr]; rfl, hmem⟩

/-- Settles O29: every row is outside the two corners, and is a row of truncated division. -/
theorem divisionTable : Obligations.DivisionTable := by
  intro row hrow s hs ha hb
  have htable : row.2.1 ≠ 0 ∧ ¬ (row.1 = -2147483648 ∧ row.2.1 = -1) ∧ row.1.tdiv row.2.1 = row.2.2.1 ∧
      row.1.tmod row.2.1 = row.2.2.2 := by
    clear ha hb
    revert row
    decide
  obtain ⟨hb0, hcorner, hq, hr⟩ := htable
  obtain ⟨t, ht, -, htq, htr, -⟩ := exec_divide_truncates hs (hb ▸ hb0) (by rwa [ha, hb])
  rw [ha, hb] at htq htr
  exact ⟨t, ht, htq.trans hq, htr.trans hr⟩

/-- Settles O30: `toInt` tells two register values apart, so the result is 1 exactly where the readings agree. -/
theorem compareEqualCompletes : Obligations.CompareEqualCompletes := by
  refine ⟨encode_eq_bytesOfWord OpcodeMap.default .compareEqual, fun s hs => ?_⟩
  obtain ⟨t, ht, hframe, hA, hmem⟩ := exec_compareEqual_completes hs
  refine ⟨t, ht, hframe, fun heq => ?_, fun hne => ?_, fun hB hA1 => ?_, fun hB hA0 => ?_, hmem⟩
  · exact hA.trans (if_pos (BitVec.toInt_inj.1 heq))
  · exact hA.trans (if_neg (mt BitVec.toInt_inj.2 hne))
  · rw [hA, hA1, hB]
    decide
  · rw [hA, hA0, hB]
    decide

end Sys2Proof.Machine
end

section
/-! PROOFS. The stack (44_stack.md): what Push and Pop check and in which order, what each leaves in `SP`, in the operand's
register and in memory, and that Pop undoes Push. -/

namespace Sys2Proof.Machine

/-! ## What each `execute` checks, and in which order (R187) -/

section checks
variable {s : State} {r : Word}

theorem pushBody_registerFault (hr : s.cfg.regCount ≤ r.toNat) : pushBody r s = .error (.registerFault r.toNat) := by
  rw [pushBody, regIndex_error hr]

theorem pushBody_memoryFault (hr : r.toNat < s.cfg.regCount) (ha : ¬ s.WordInMemory (pushPointer s).toInt) :
    pushBody r s = .error (.memoryFault (pushPointer s).toInt) := by
  rw [pushBody, regIndex_ok hr]
  exact writeWord_error _ ha

theorem popBody_registerFault (hr : s.cfg.regCount ≤ r.toNat) : popBody r s = .error (.registerFault r.toNat) := by
  rw [popBody, regIndex_error hr]

theorem popBody_memoryFault (hr : r.toNat < s.cfg.regCount) (ha : ¬ s.WordInMemory s.regSP.toInt) :
    popBody r s = .error (.memoryFault s.regSP.toInt) := by
  simp only [popBody, regIndex_ok hr, popPointer, readWord_error ha]

/-- R166, D14: past its checks, Pop's `execute` writes the operand's register before it reads `SP` again. -/
theorem popBody_ok (hs : s.WF) (hr : r.toNat < s.cfg.regCount) (ha : s.WordInMemory s.regSP.toInt) :
    popBody r s = .ok ((s.writeReg r.toNat (s.wordAt s.regSP.toNat)).writeReg s.cfg.idxSP
      ((if s.cfg.idxSP = r.toNat then s.wordAt s.regSP.toNat else s.regSP) + 4)) := by
  have hread := State.readReg_writeReg s r.toNat (s.wordAt s.regSP.toNat) (hs.regs_length ▸ hr) s.cfg.idxSP
  rcases popBody_cases (r := r) (s := s) with ⟨hr', _⟩ | ⟨_, ha', _⟩ | ⟨_, _, hok⟩
  · omega
  · exact absurd ha ha'
  · rw [hok, hread, State.regSP]

end checks

/-! ## What a completed Push or Pop leaves (R165, R166) -/

/-- The count of the cycle's end does not reach `SP`. -/
theorem regSP_retire_of_written {s u : State} (hs : s.WF) (hcfg : u.cfg = s.cfg) (hlen : u.regs.length = s.regs.length)
    (pcNext : Word) {v : Word} (h : u.readReg s.cfg.idxSP = v) : (u.retire pcNext).regSP = v := by
  obtain ⟨-, -, -, ⟨-, hCYC⟩, -⟩ := hs.config.index_ne
  have hread := readReg_retire_of_written hs hcfg hlen pcNext h
  rwa [State.counted_of_ne hCYC, ← hcfg] at hread

/-- R165: a completed Push leaves `SP` on the word it stored. -/
theorem regSP_of_push {s t : State} (hs : s.WF) {r : Word} (hr : r.toNat < s.cfg.regCount)
    (ha : s.WordInMemory (pushPointer s).toInt) (ht : exec (.push r) s = .next t) : t.regSP = pushPointer s := by
  obtain ⟨-, -, -, hSP, -⟩ := hs.config.index_lt
  have hptr := pushPointer_mirror hs (s.pcSeq 5)
  have hbody := pushBody_ok (s := s.mirror (s.pcSeq 5)) hr (hptr ▸ ha)
  rw [hptr, State.mirror_cfg] at hbody
  obtain ⟨hcfg, -, -, -, hlen⟩ := (SameFrame.mirror s _).trans (bodyOf_sameFrame (i := .push r) hbody)
  cases ht.symm.trans (exec_of_bodyOf_ok (i := .push r) nofun hbody)
  refine regSP_retire_of_written hs hcfg hlen _ ?_
  exact (State.readReg_writeReg _ _ _ (by simpa [hs.regs_length] using hSP) _).trans (if_pos rfl)

/-- R166, D14: a Pop with a legal register and stack address completes. `SP` goes up from what it holds after the operand's
register is written. -/
theorem exec_pop_completes {s : State} (hs : s.WF) {r : Word} (hr : r.toNat < s.cfg.regCount)
    (ha : s.WordInMemory s.regSP.toInt) :
    ∃ t, exec (.pop r) s = .next t ∧ CompletesTo s t 5 (s.pc + 5) [r.toNat, s.cfg.idxSP] ∧ SameMemory s t ∧
      (r.toNat ≠ s.cfg.idxSP → t.readReg r.toNat = s.counted r.toNat (s.wordAt s.regSP.toNat)) ∧
      t.regSP = (if s.cfg.idxSP = r.toNat then s.wordAt s.regSP.toNat else s.regSP) + 4 := by
  obtain ⟨-, -, -, hSP, -⟩ := hs.config.index_lt
  obtain ⟨-, -, hmirror⟩ := State.operands_mirror hs (s.pcSeq 5)
  have hbody := popBody_ok (s := s.mirror (s.pcSeq 5)) (hs.mirror _) hr (hmirror ▸ ha)
  rw [hmirror] at hbody
  obtain ⟨hcfg, -, hstatus, hfault, hlen⟩ := (SameFrame.mirror s _).trans (bodyOf_sameFrame (i := .pop r) hbody)
  have hregs : (s.mirror (s.pcSeq 5)).regs.length = s.cfg.regCount := by
    rw [State.mirror_regs_length, hs.regs_length]
  refine ⟨_, exec_of_bodyOf_ok (i := .pop r) nofun hbody, ?_, fun _ => rfl, fun hne => ?_, ?_⟩
  · refine completesTo_retire hs (op := .pop) _ hcfg hstatus hfault hlen fun j hj => ?_
    obtain ⟨hjr, hjSP⟩ : j ≠ r.toNat ∧ j ≠ s.cfg.idxSP := by simpa using hj
    exact (State.readReg_writeReg_other _ _ _ hjSP).trans (State.readReg_writeReg_other _ _ _ hjr)
  · exact readReg_retire_of_written hs hcfg hlen _ (readReg_writeReg_writeReg (hregs ▸ hr) (hregs ▸ hSP) hne).1
  · refine regSP_retire_of_written hs hcfg hlen _ ?_
    exact (State.readReg_writeReg _ _ _ (by rwa [State.writeReg_regs_length, hregs]) _).trans (if_pos rfl)

/-! ## Push, then Pop (R167) -/

/-- R167: Pop finds `SP` on the word that Push stored, so `SP` goes back and the operand's register, if another, is loaded
with the value that the Push read. -/
theorem exec_push_then_pop {s : State} (hs : s.WF) {r : Word} (hr : r.toNat < s.cfg.regCount)
    (ha : s.WordInMemory (pushPointer s).toInt) :
    ∃ t u, exec (.push r) s = .next t ∧ exec (.pop r) t = .next u ∧ u.status = s.status ∧ u.cfg = s.cfg ∧
      u.regSP = s.regSP ∧
      (r.toNat ≠ s.cfg.idxSP → u.readReg r.toNat = s.counted r.toNat (s.seen 5 r.toNat)) := by
  obtain ⟨t, ht, ⟨-, htstatus, -, htcfg, -⟩, hstored, -⟩ := exec_push_completes hs hr ha
  have htSP := regSP_of_push hs hr ha ht
  have hword := wordAt_of_bytes hstored
  obtain ⟨u, hu, ⟨-, hustatus, -, hucfg, -⟩, -, hread, huSP⟩ :=
    exec_pop_completes (s := t) (r := r) (exec_keeps_WF (i := .push r) hs nofun ht) (htcfg ▸ hr)
      (by rwa [State.WordInMemory, htSP, htcfg])
  rw [htSP, hword, htcfg] at huSP hread
  refine ⟨t, u, ht, hu, hustatus.trans htstatus, hucfg.trans htcfg, ?_, fun hne => ?_⟩
  · rw [huSP, pushPointer]
    by_cases heq : r.toNat = s.cfg.idxSP
    · rw [if_pos heq.symm, if_pos heq, BitVec.sub_add_cancel]
    · rw [if_neg (Ne.symm heq), BitVec.sub_add_cancel]
  · rw [hread hne, if_neg hne, State.counted, State.counted, htcfg]

/-! ## The statements -/

/-- Settles O31: both checks precede the store, and the mirror write does not reach the `SP` that they read. -/
theorem pushRule : Obligations.PushRule := by
  refine fun s r hs => ⟨fun hr => ?_, fun hr ha => ?_, fun hr ha => ?_⟩
  · exact exec_of_bodyOf_error (i := .push r) nofun (pushBody_registerFault (s := s.mirror _) hr)
  · have hptr := pushPointer_mirror hs (s.pcSeq 5)
    have hbody := pushBody_memoryFault (s := s.mirror (s.pcSeq 5)) hr (hptr ▸ ha)
    rw [hptr] at hbody
    exact exec_of_bodyOf_error (i := .push r) nofun hbody
  · obtain ⟨t, ht, hframe, hstored⟩ := exec_push_completes hs hr ha
    refine ⟨t, ht, hframe, regSP_of_push hs hr ha ht, fun a haddr => ?_⟩
    have hnat := toNat_toInt ha.1
    rw [haddr, Int.toNat_natCast] at hnat
    exact hnat ▸ hstored

/-- Settles O32: both checks precede the two register writes, of which the one to `SP` is the last. -/
theorem popRule : Obligations.PopRule := by
  refine fun s r hs => ⟨fun hr => ?_, fun hr ha => ?_, fun hr ha => ?_⟩
  · exact exec_of_bodyOf_error (i := .pop r) nofun (popBody_registerFault (s := s.mirror _) hr)
  · obtain ⟨-, -, hmirror⟩ := State.operands_mirror hs (s.pcSeq 5)
    have hbody := popBody_memoryFault (s := s.mirror (s.pcSeq 5)) hr (hmirror ▸ ha)
    rw [hmirror] at hbody
    exact exec_of_bodyOf_error (i := .pop r) nofun hbody
  · obtain ⟨t, ht, hframe, hmem, hread, hsp⟩ := exec_pop_completes hs hr ha
    refine ⟨t, ht, hframe, hmem, fun hne => ⟨hread hne, ?_⟩, fun heq => ?_⟩
    · rw [hsp, if_neg hne.symm]
    · rw [hsp, if_pos heq.symm]

/-- Settles O33: the operand's register ends as the Push read it, plus the count where it is `CYC`. -/
theorem pushThenPopRestores : Obligations.PushThenPopRestores := by
  intro s r hs hr ha
  obtain ⟨-, -, -, ⟨hSPIP, hSPCYC⟩, hIPCYC⟩ := hs.config.index_ne
  obtain ⟨t, u, ht, hu, hstatus, hcfg, hSP, hread⟩ := exec_push_then_pop hs hr ha
  refine ⟨t, u, ht, hu, hstatus, hSP, fun hCYC hIP => ?_, fun hCYC => ?_, fun hIP => ?_⟩
  · by_cases heq : r.toNat = s.cfg.idxSP
    · rwa [State.regSP, State.regSP, hcfg, ← heq] at hSP
    · rw [hread heq, State.counted_of_ne hCYC, State.seen_of_ne hIP]
  · rw [hCYC, State.counted, if_pos rfl, State.seen_of_ne hIPCYC.symm] at hread
    rw [State.regCYC, hcfg]
    exact hread hSPCYC.symm
  · rw [hIP, State.counted_of_ne hIPCYC, State.seen, if_pos rfl] at hread
    rw [State.regIP, hcfg]
    exact hread hSPIP.symm

end Sys2Proof.Machine
end

section
/-! PROOFS. Faults (60_exceptions.md): what the fetch raises and in which order, which faults the `execute` of each
instruction can raise, and that a step ends FAULTED only by the fault entry of R186. -/

namespace Sys2Proof.Machine

/-! ## What the fetch raises (R111, R112, R187) -/

/-- R82: an instruction has the fields of its operation's format. -/
theorem fields_length (i : Instr) : i.fields.length = i.opcode.format.fieldCount := by
  cases i <;> rfl

/-- R112: the operand fetch raises what the read of its first field outside memory raises. -/
theorem fetchOperands_error {s : State} {op : Opcode} {k : Nat} {c : Cause} (hk : k < op.format.fieldCount)
    (hread : ∀ j < k, ∃ f, fetchField s j = .ok f) (h : fetchField s k = .error c) : fetchOperands s op = .error c := by
  unfold fetchOperands
  cases hf : op.format <;> rw [hf, Format.fieldCount] at hk
  case f0 => omega
  case f1 =>
    obtain rfl : k = 0 := by omega
    simp only [h]
  case f2 =>
    obtain rfl | rfl : k = 0 ∨ k = 1 := by omega
    · simp only [h]
    · obtain ⟨f0, h0⟩ := hread 0 (by omega)
      simp only [h0, h]

/-- R112: what the operand fetch raises is raised by the read of a field. -/
theorem fetchField_error_of_fetchOperands {s : State} {op : Opcode} {c : Cause} (h : fetchOperands s op = .error c) :
    ∃ k, fetchField s k = .error c := by
  unfold fetchOperands at h
  split at h
  next => cases h
  next =>
    split at h
    next h0 => cases h; exact ⟨0, h0⟩
    next => cases h
  next =>
    split at h
    next h0 => cases h; exact ⟨0, h0⟩
    next =>
      split at h
      next h1 => cases h; exact ⟨1, h1⟩
      next => cases h

/-- R183: the operand fetch raises no fault but MemoryFault. -/
theorem fetchOperands_memoryFault {s : State} {op : Opcode} {c : Cause} (h : fetchOperands s op = .error c) :
    ∃ a, c = .memoryFault a := by
  obtain ⟨k, hk⟩ := fetchField_error_of_fetchOperands h
  rcases readWord_cases _ hk with ⟨-, hc⟩ | ⟨-, hc⟩ <;> cases hc
  exact ⟨_, rfl⟩

section fetch
variable {s : State} (hpc : 0 ≤ s.pc.toInt ∧ s.pc.toInt < s.cfg.memSize)
include hpc

/-- R111: the byte fetched at a `pc` inside memory. -/
theorem readU8_pc : readU8 s s.pc.toInt = .ok (s.byteAt s.pc.toNat) := by
  rw [readU8_ok (by omega), toNat_toInt hpc.1]

theorem fetchDecode_of_illegalByte (hb : s.byteAt s.pc.toNat ∉ s.cfg.opc.toList) :
    fetchDecode s = .error (.decodeFault (s.byteAt s.pc.toNat)) := by
  simp only [fetchDecode, readU8_pc hpc, OpcodeMap.opcodeOf_eq_none.2 hb]

theorem fetchDecode_of_opcode {op : Opcode} (hop : s.cfg.opc.opcodeOf (s.byteAt s.pc.toNat) = some op) :
    fetchDecode s = fetchOperands s op := by
  simp only [fetchDecode, readU8_pc hpc, hop]

end fetch

/-- R181: the fetch raises DecodeFault only for a byte at `pc` that is no opcode. -/
theorem fetchDecode_decodeFault {s : State} {b : Byte} (h : fetchDecode s = .error (.decodeFault b)) :
    (0 ≤ s.pc.toInt ∧ s.pc.toInt < s.cfg.memSize) ∧ s.byteAt s.pc.toNat ∉ s.cfg.opc.toList := by
  by_cases hpc : 0 ≤ s.pc.toInt ∧ s.pc.toInt < s.cfg.memSize
  · refine ⟨hpc, fun hb => ?_⟩
    obtain ⟨op, hop⟩ := Option.ne_none_iff_exists'.1 (mt OpcodeMap.opcodeOf_eq_none.1 (not_not.2 hb))
    rw [fetchDecode_of_opcode hpc hop] at h
    obtain ⟨a, ha⟩ := fetchOperands_memoryFault h
    cases ha
  · rw [fetchDecode, readU8_error (by omega)] at h
    cases h

/-! ## The faults of the fetch, as steps (R186, R187) -/

theorem step_of_illegalByte {s : State} (hrun : s.status = .running)
    (hpc : 0 ≤ s.pc.toInt ∧ s.pc.toInt < s.cfg.memSize) (hb : s.byteAt s.pc.toNat ∉ s.cfg.opc.toList) :
    step s = .next (s.faultedWith .decodeFault 1 (s.byteAt s.pc.toNat).toNat) :=
  step_of_fetch_fault hrun (fetchDecode_of_illegalByte hpc hb)

/-- R91, R112: where the bytes of an instruction run past the end of memory inside field `k`, the step faults at the start of
that field. -/
theorem step_of_truncated {s : State} {i : Instr} {k : Nat} (hs : s.WF) (hrun : s.status = .running)
    (h0 : 0 ≤ s.pc.toInt) (hbyte : s.byteAt s.pc.toNat = s.cfg.opc.byteOf i.opcode) (hk : k < i.fields.length)
    (hin : s.pc.toInt + 1 + 4 * k ≤ s.cfg.memSize) (hout : s.cfg.memSize < s.pc.toInt + 1 + 4 * k + 4) :
    step s = .next (s.faultedWith .memoryFault 3 (s.pc.toInt + 1 + 4 * k)) := by
  obtain ⟨-, -, -, -, -, -, hopc, -⟩ := hs.config
  have hop := hbyte ▸ OpcodeMap.opcodeOf_byteOf hopc i.opcode
  have hread : ∀ j < k, ∃ f, fetchField s j = .ok f := fun j hj => ⟨_, readWord_ok ⟨by omega, by omega⟩⟩
  have hfield : fetchField s k = .error (.memoryFault (s.pc.toInt + 1 + 4 * k)) :=
    readWord_error fun ⟨_, hN⟩ => by omega
  have hfetch := fetchOperands_error (fields_length i ▸ hk) hread hfield
  rw [← fetchDecode_of_opcode ⟨h0, by omega⟩ hop] at hfetch
  exact step_of_fetch_fault hrun hfetch

/-! ## What each `execute` raises (R197) -/

/-- The table of R197: the kinds of fault that the `execute` of an instruction can raise. -/
def MayRaise (c : Config) : Instr → FaultKind → Prop
  | .halt, _ => False
  | .jump _, _ => False
  | .noOperation, _ => False
  | .compareEqual, _ => False
  | .add, k => k = .arithmeticFault ∧ c.arithOverflow = .fault
  | .subtract, k => k = .arithmeticFault ∧ c.arithOverflow = .fault
  | .multiply, k => k = .arithmeticFault ∧ c.arithOverflow = .fault
  | .divide, k => k = .arithmeticFault
  | .load _ _, k => k = .registerFault
  | .moveRegister _ _, k => k = .registerFault
  | .store _ _, k => k = .registerFault ∨ k = .memoryFault
  | .loadIndirect _ _, k => k = .registerFault ∨ k = .memoryFault
  | .push _, k => k = .registerFault ∨ k = .memoryFault
  | .pop _, k => k = .registerFault ∨ k = .memoryFault

/-- R181: no instruction is known yet where DecodeFault is raised, and none raises it. -/
theorem MayRaise.ne_decodeFault {c : Config} {i : Instr} {k : FaultKind} (h : MayRaise c i k) : k ≠ .decodeFault := by
  rintro rfl
  cases i <;> simp [MayRaise] at h

theorem writeA_mayRaise {s : State} {exact : Int} {c : Cause} (h : writeA s exact = .error c) :
    c.kind = .arithmeticFault ∧ s.cfg.arithOverflow = .fault := by
  rcases writeA_cases (s := s) (exact := exact) with ⟨hp, _, e⟩ | ⟨_, e⟩ <;> cases h.symm.trans e
  exact ⟨rfl, hp⟩

theorem bodyOf_mayRaise {i : Instr} {s : State} {c : Cause} (h : bodyOf i s = .error c) : MayRaise s.cfg i c.kind := by
  cases i with
  | halt | jump _ | noOperation | compareEqual => cases h
  | add | subtract | multiply => exact writeA_mayRaise h
  | divide =>
    rcases divideBody_cases (s := s) with ⟨_, e⟩ | ⟨_, _, _, e⟩ <;> cases h.symm.trans e
    rfl
  | load r imm =>
    rcases loadBody_cases (r := r) (imm := imm) (s := s) with ⟨_, e⟩ | ⟨_, e⟩ <;> cases h.symm.trans e
    rfl
  | moveRegister rd rs =>
    rcases moveRegisterBody_cases (rd := rd) (rs := rs) (s := s) with ⟨_, e⟩ | ⟨_, _, e⟩ | ⟨_, _, e⟩ <;>
      cases h.symm.trans e
    · rfl
    · rfl
  | store r addr =>
    rcases storeBody_cases (r := r) (addr := addr) (s := s) with ⟨_, e⟩ | ⟨_, _, e⟩ | ⟨_, _, e⟩ <;>
      cases h.symm.trans e
    · exact .inl rfl
    · exact .inr rfl
  | loadIndirect r addr =>
    rcases loadIndirectBody_cases (r := r) (addr := addr) (s := s) with ⟨_, e⟩ | ⟨_, _, e⟩ | ⟨_, _, e⟩ <;>
      cases h.symm.trans e
    · exact .inl rfl
    · exact .inr rfl
  | push r =>
    rcases pushBody_cases (r := r) (s := s) with ⟨_, e⟩ | ⟨_, _, e⟩ | ⟨_, _, e⟩ <;> cases h.symm.trans e
    · exact .inl rfl
    · exact .inr rfl
  | pop r =>
    rcases popBody_cases (r := r) (s := s) with ⟨_, e⟩ | ⟨_, _, e⟩ | ⟨_, _, e⟩ <;> cases h.symm.trans e
    · exact .inl rfl
    · exact .inr rfl

/-! ## A machine becomes FAULTED only by the fault entry (R186) -/

/-- R31: a well-formed state with a fault record is FAULTED. -/
theorem State.WF.faulted_of_record {s : State} (hs : s.WF) {r : FaultRecord} (hr : s.fault = some r) :
    s.status = .faulted := by
  by_contra hne
  cases (hs.no_fault hne).symm.trans hr

/-- R186: an instruction that makes the machine FAULTED takes a fault that its `execute` may raise. -/
theorem exec_faulted {i : Instr} {s t : State} (hne : s.status ≠ .faulted) (h : exec i s = .next t)
    (ht : t.status = .faulted) : ∃ c, MayRaise s.cfg i c.kind ∧ t = s.takeFault c := by
  rcases exec_cases h with ⟨-, rfl⟩ | ⟨-, c, hc, rfl⟩ | ⟨-, u, -, ⟨-, -, hstatus, -⟩, rfl⟩
  · cases ht
  · exact ⟨c, bodyOf_mayRaise (s := s.mirror _) hc, rfl⟩
  · exact absurd (hstatus.symm.trans ht) hne

/-- R186: a step that makes the machine FAULTED takes a fault of the fetch or one that the instruction fetched may raise. -/
theorem step_faulted {s t : State} (h : step s = .next t) (ht : t.status = .faulted) :
    ∃ c, (fetchDecode s = .error c ∨ ∃ i, fetchDecode s = .ok i ∧ MayRaise s.cfg i c.kind) ∧ t = s.takeFault c := by
  obtain ⟨hrun, ⟨c, hc, rfl⟩ | ⟨i, hi, he⟩⟩ := step_cases h
  · exact ⟨c, .inl hc, rfl⟩
  · obtain ⟨c, hc, rfl⟩ := exec_faulted (by simp [hrun]) he ht
    exact ⟨c, .inr ⟨i, hi, hc⟩, rfl⟩

/-! ## The statements -/

/-- Settles O8: each check of the fetch that fails, where those before it pass. -/
theorem fetchFaultsInOrder : Obligations.FetchFaultsInOrder := by
  refine fun s hs hrun => ⟨step_of_pc_outside hrun, fun h0 hN => ⟨step_of_illegalByte hrun ⟨h0, hN⟩, ?_⟩⟩
  refine fun i hbyte => ⟨fun hlen hout => ?_, fun hlen hin hout => ?_⟩
  · have hstep := step_of_truncated (k := 0) hs hrun h0 hbyte (by omega) (by omega) (by omega)
    rwa [show s.pc.toInt + 1 + 4 * (0 : Nat) = s.pc.toInt + 1 by omega] at hstep
  · have hstep := step_of_truncated (k := 1) hs hrun h0 hbyte (by omega) (by omega) (by omega)
    rwa [show s.pc.toInt + 1 + 4 * (1 : Nat) = s.pc.toInt + 5 by omega] at hstep

/-- Settles O9: a recorded DecodeFault is one of the fetch, and under the adopted map a byte of 14 or more is no opcode. -/
theorem decodeFaultExactlyOnIllegalByte : Obligations.DecodeFaultExactlyOnIllegalByte := by
  intro s hs hopc hrun
  have hillegal : s.byteAt s.pc.toNat ∉ s.cfg.opc.toList ↔ 14 ≤ (s.byteAt s.pc.toNat).toNat := by
    rw [hopc, OpcodeMap.mem_default]
    omega
  refine ⟨fun h0 hN hb => step_of_illegalByte hrun ⟨h0, hN⟩ (hillegal.2 hb), fun t r h hr hkind => ?_⟩
  obtain ⟨c, hc, rfl⟩ := step_faulted h ((step_keeps_WF hs h).faulted_of_record hr)
  cases hr
  rcases hc with hfetch | ⟨i, -, hraise⟩
  · cases c <;> cases hkind
    obtain ⟨⟨h0, hN⟩, hb⟩ := fetchDecode_decodeFault hfetch
    exact ⟨h0, hN, hillegal.1 hb⟩
  · exact absurd hkind hraise.ne_decodeFault

/-- Settles O34: the step is a fault entry, and the code of a cause is that of its kind. -/
theorem faultEntryIsPrecise : Obligations.FaultEntryIsPrecise := by
  intro s t h ht
  obtain ⟨c, -, rfl⟩ := step_faulted h ht
  refine ⟨faultRecord s.pc c, rfl, rfl, ?_⟩
  cases c <;> rfl

/-- Settles O35: the instruction's fault entry records a kind that the table of R197 allows it. -/
theorem faultsOfEachInstruction : Obligations.FaultsOfEachInstruction := by
  intro s t i r hrun h ht hr
  obtain ⟨c, hc, rfl⟩ := exec_faulted (by simp [hrun]) h ht
  cases hr
  cases i <;> exact hc

end Sys2Proof.Machine
end

section
/-! PROOFS. The reset (70_reset_and_hazards.md): the registers that power-on leaves, and `initialize()` as one equation
for all three statuses. -/

namespace Sys2Proof.Machine

/-! ## Power-on -/

/-- R34: a register other than `CYC` starts from its `REG_INIT`. -/
theorem State.powerOn_readReg_of_ne {c : Config} {j : Nat} (h : j ≠ c.idxCYC) :
    (State.powerOn c).readReg j = c.regInit.getD j 0 := by
  simp [State.readReg, State.powerOn, h.symm]

/-- R34: `CYC` starts from 0, whatever `REG_INIT` says of it (log entry 4). -/
theorem State.powerOn_regCYC {c : Config} (h : c.WF) : (State.powerOn c).regCYC = 0 := by
  obtain ⟨-, -, -, -, -, hCYC⟩ := h.index_lt
  rw [← h.regInit_length] at hCYC
  simp [State.regCYC, State.readReg, State.powerOn, hCYC]

/-- R34 (D16): at reset every register but `SP` reads 0. -/
theorem State.reset_readReg_of_ne {j : Nat} (h : j ≠ Config.default.idxSP) : State.reset.readReg j = 0 :=
  match j with
  | 0 | 1 | 2 | 4 | 5 => rfl
  | 3 => absurd rfl h
  | _ + 6 => rfl

/-! ## `initialize()` -/

/-- R212, D30: `initialize()` is its two writes, and the status it leaves is FAULTED only where it was. -/
theorem State.hostInitialize_eq (s : State) :
    s.hostInitialize =
      ((s.writeReg s.cfg.idxCYC 0).setPc 0).setStatus (if s.status = .faulted then .faulted else .running) := by
  by_cases hf : s.status = .faulted
  · rw [State.hostInitialize_of_faulted hf, if_pos hf]
    exact (State.setStatus_self (by simpa using hf)).symm
  · rw [State.hostInitialize_of_not_faulted hf, if_neg hf]

/-! ## The statements -/

/-- Settles O47: the memory of power-on holds no cell, and the registers are `REG_INIT` with `CYC` overwritten. -/
theorem powerOnState : Obligations.PowerOnState := by
  refine ⟨fun c hc => ⟨rfl, fun _ => rfl, State.powerOn_regCYC hc, fun j hj hne => ?_, rfl, rfl⟩, rfl, rfl,
    fun _ => State.reset_readReg_of_ne⟩
  have hlen : j < c.regInit.length := hc.regInit_length ▸ hj
  rw [State.powerOn_readReg_of_ne hne, List.getElem?_eq_getElem hlen, List.getD_eq_getElem _ _ hlen]

/-- Settles O48: the two writes leave every other register and every other field, and the status is set apart. -/
theorem initializeRule : Obligations.InitializeRule := by
  intro s hs
  have hCYC := State.hostInitialize_regCYC hs
  rw [State.hostInitialize_eq] at hCYC ⊢
  exact ⟨rfl, hCYC, fun _ => State.readReg_writeReg_other _ _ _, rfl, rfl, rfl,
    fun hf => if_pos hf, fun hf => if_neg hf⟩

end Sys2Proof.Machine
end
